-- ==== Sys2Proof/Word.lean ====
section
/-! DEFINITION. Word.lean: the widths of the machine, `00_scope.md` rules R4, R5. -/

namespace Sys2Proof

/-- A 32-bit value: a general register, an address, an instruction word, the datum of `lw` and `sw` (R4: `XLEN`,
`PCLEN`, `ILEN`, `WORD`). Bit 31 is the most significant, bit 0 the least (R5). -/
abbrev Word := BitVec 32

/-- One addressable byte (R40). -/
abbrev Byte := BitVec 8

/-- A general register number, `0 .. 31` (R20; R4: `NREGS = 32`). -/
abbrev RegNum := Fin 32

/-- The link register of `jal` (R22). -/
def linkReg : RegNum := 31

end Sys2Proof
end

