-- ==== Sys2Proof/Config.lean ====
section
/-! DEFINITION. Config.lean: the parameters of a run, `00_scope.md` R4 and R9.

The spec makes these arguments of the step relation. The host's `step` takes the state alone, so the state carries them
in a record that no instruction writes (log 1). Nothing here is a free value: the spec leaves no result open. -/

namespace Sys2Proof

/-- `BYTE_ORDER` (R43). -/
inductive ByteOrder
  | big
  | little
deriving DecidableEq, Repr

/-- A range of data addresses with memory behind them, both ends included (R42); log 4. -/
structure Region where
  first : Nat
  last : Nat
deriving DecidableEq, Repr

/-- The parameters of R4 that are not fixed. -/
structure Params where
  /-- `Text`: the bytes of the program words, by strictly rising address (R30, R41); log 10. -/
  text : List Host.Cell
  /-- `BYTE_ORDER` (R43). -/
  byteOrder : ByteOrder
  /-- `Mapped`: the ranges of addresses backed by data memory (R42). -/
  mapped : List Region
  /-- `TEXT_GUARD` (R41). -/
  textGuard : Bool
  /-- `RESET_PC` (R32). -/
  resetPc : Word
  /-- `END_PC` (R202): `none` is the default, the address just past the last word of `Text`. -/
  endPc : Option Word
deriving DecidableEq, Repr

/-- The defaults of R4: big-endian, text guard on, `RESET_PC` 0, `END_PC` by default. R4 gives `Mapped` no default: here
the whole address space (DESIGN CHOICE, unsafe, log 4). `Text` is what a host loads: here nothing (log 8). -/
def Params.default : Params where
  text := []
  byteOrder := .big
  mapped := [{ first := 0, last := 0xFFFFFFFC }]
  textGuard := true
  resetPc := 0x00000000#32
  endPc := none

end Sys2Proof
end

