-- ==== Sys2Proof/Syntax.lean ====
section
/-! DEFINITION. Syntax.lean: the 27 instructions, one constructor per row of `spec/opcode_table.json`.

Operands stand in the assembler's order (`30_encoding.md` R82), destination first; `sw` has its base, then its data
register, then its displacement. Immediates are the bits of their field, extended only where an instruction uses them
(R75). Fields the decoder ignores (R78 (c), (d)) are kept, so that no bit of a word is lost: `unused` is the `r2` field
of `beqz` and `bnez`, and the shift immediates carry all 16 bits of `imm16` (log 9). -/

namespace Sys2Proof

inductive Instr
  | add  (rd rs1 rs2 : RegNum)
  | addi (rd rs1 : RegNum) (imm : BitVec 16)
  | and  (rd rs1 rs2 : RegNum)
  | andi (rd rs1 : RegNum) (imm : BitVec 16)
  | beqz (rs1 : RegNum) (unused : BitVec 5) (off : BitVec 16)
  | bnez (rs1 : RegNum) (unused : BitVec 5) (off : BitVec 16)
  | j    (off : BitVec 26)
  | jal  (off : BitVec 26)
  | lw   (rd rs1 : RegNum) (disp : BitVec 16)
  | nop
  | or   (rd rs1 rs2 : RegNum)
  | ori  (rd rs1 : RegNum) (imm : BitVec 16)
  | sge  (rd rs1 rs2 : RegNum)
  | sgei (rd rs1 : RegNum) (imm : BitVec 16)
  | sle  (rd rs1 rs2 : RegNum)
  | slei (rd rs1 : RegNum) (imm : BitVec 16)
  | sll  (rd rs1 rs2 : RegNum)
  | slli (rd rs1 : RegNum) (imm : BitVec 16)
  | sne  (rd rs1 rs2 : RegNum)
  | snei (rd rs1 : RegNum) (imm : BitVec 16)
  | srl  (rd rs1 rs2 : RegNum)
  | srli (rd rs1 : RegNum) (imm : BitVec 16)
  | sub  (rd rs1 rs2 : RegNum)
  | subi (rd rs1 : RegNum) (imm : BitVec 16)
  | sw   (rs1 rs2 : RegNum) (disp : BitVec 16)
  | xor  (rd rs1 rs2 : RegNum)
  | xori (rd rs1 : RegNum) (imm : BitVec 16)
deriving DecidableEq, Repr

/-- The 27 names of the source's table (R1). -/
inductive Mnemonic
  | add | addi | and | andi | beqz | bnez | j | jal | lw | nop | or | ori | sge | sgei | sle | slei | sll | slli
  | sne | snei | srl | srli | sub | subi | sw | xor | xori
deriving DecidableEq, Repr

/-- The name of an instruction. -/
def Instr.mnemonic : Instr → Mnemonic
  | .add _ _ _ => .add
  | .addi _ _ _ => .addi
  | .and _ _ _ => .and
  | .andi _ _ _ => .andi
  | .beqz _ _ _ => .beqz
  | .bnez _ _ _ => .bnez
  | .j _ => .j
  | .jal _ => .jal
  | .lw _ _ _ => .lw
  | .nop => .nop
  | .or _ _ _ => .or
  | .ori _ _ _ => .ori
  | .sge _ _ _ => .sge
  | .sgei _ _ _ => .sgei
  | .sle _ _ _ => .sle
  | .slei _ _ _ => .slei
  | .sll _ _ _ => .sll
  | .slli _ _ _ => .slli
  | .sne _ _ _ => .sne
  | .snei _ _ _ => .snei
  | .srl _ _ _ => .srl
  | .srli _ _ _ => .srli
  | .sub _ _ _ => .sub
  | .subi _ _ _ => .subi
  | .sw _ _ _ => .sw
  | .xor _ _ _ => .xor
  | .xori _ _ _ => .xori

end Sys2Proof
end

