-- ==== Sys2Proof/WellFormed.lean ====
section
/-! DEFINITION. WellFormed.lean: the instructions an assembler writes (`30_encoding.md` R75, R78, R82).

The types of `Instr` already bound every register number and immediate. What is left to check are the fields the decoder
ignores: an assembler leaves them zero. An ill-formed instruction still decodes and still runs (R78 (c), (d)); it is a
word no assembler text of R82 stands for. -/

namespace Sys2Proof

/-- Every ignored field is zero: `r2` of `beqz` and `bnez` (R82: "`r2 = 0`"), and the bits above the five of the shift
amount (R75: `shamt` has the range 0 .. 31). -/
def Instr.wellFormed : Instr → Bool
  | .beqz _ unused _ => unused == 0#5
  | .bnez _ unused _ => unused == 0#5
  | .slli _ _ imm => decide (imm.toNat < 32)
  | .srli _ _ imm => decide (imm.toNat < 32)
  | .add _ _ _ => true
  | .addi _ _ _ => true
  | .and _ _ _ => true
  | .andi _ _ _ => true
  | .j _ => true
  | .jal _ => true
  | .lw _ _ _ => true
  | .nop => true
  | .or _ _ _ => true
  | .ori _ _ _ => true
  | .sge _ _ _ => true
  | .sgei _ _ _ => true
  | .sle _ _ _ => true
  | .slei _ _ _ => true
  | .sll _ _ _ => true
  | .sne _ _ _ => true
  | .snei _ _ _ => true
  | .srl _ _ _ => true
  | .sub _ _ _ => true
  | .subi _ _ _ => true
  | .sw _ _ _ => true
  | .xor _ _ _ => true
  | .xori _ _ _ => true

end Sys2Proof
end

