-- ==== Sys2Proof/Decode.lean ====
section
/-! DEFINITION. Decode.lean: from words to instructions and back, `30_encoding.md` R70-R81. -/

namespace Sys2Proof

/-! ### Fields (R7, R71-R73) -/

def opField (w : Word) : BitVec 6 := w.extractLsb' 26 6
def funcField (w : Word) : BitVec 11 := w.extractLsb' 0 11
def rs1Bits (w : Word) : BitVec 5 := w.extractLsb' 21 5
def r2Bits (w : Word) : BitVec 5 := w.extractLsb' 16 5
def r3Bits (w : Word) : BitVec 5 := w.extractLsb' 11 5
def imm16Field (w : Word) : BitVec 16 := w.extractLsb' 0 16
def imm26Field (w : Word) : BitVec 26 := w.extractLsb' 0 26

/-- The register a 5-bit field names. -/
def regOfBits (b : BitVec 5) : RegNum := ⟨b.toNat, b.isLt⟩

/-- The 5-bit field that names a register. -/
def bitsOfReg (r : RegNum) : BitVec 5 := BitVec.ofNat 5 r.val

/-! ### The decoder -/

/-- Why a word, or a string of bytes, is no instruction (R79): every one is raised as `IllegalInstruction`. -/
inductive Reserved
  /-- `op` is none of the 18 primary opcodes of R76. -/
  | op (value : BitVec 6)
  /-- `op = 0` and `func` is none of the ten values of R77. -/
  | func (value : BitVec 11)
  /-- `op = 0x15` with a tail that is not zero (R78 (b)). -/
  | nopTail (value : BitVec 26)
  /-- Fewer than the four bytes of a word (R70). -/
  | truncated (bytes : Nat)
deriving DecidableEq, Repr

/-- The R-type group, `op = 0`, by all eleven bits of `func` (R77, R78 (a)). -/
def decodeRType (w : Word) : Except Reserved Instr :=
  let rd := regOfBits (r3Bits w)
  let rs1 := regOfBits (rs1Bits w)
  let rs2 := regOfBits (r2Bits w)
  match funcField w with
  | 0x004#11 => .ok (.sll rd rs1 rs2)
  | 0x006#11 => .ok (.srl rd rs1 rs2)
  | 0x020#11 => .ok (.add rd rs1 rs2)
  | 0x022#11 => .ok (.sub rd rs1 rs2)
  | 0x024#11 => .ok (.and rd rs1 rs2)
  | 0x025#11 => .ok (.or rd rs1 rs2)
  | 0x026#11 => .ok (.xor rd rs1 rs2)
  | 0x029#11 => .ok (.sne rd rs1 rs2)
  | 0x02c#11 => .ok (.sle rd rs1 rs2)
  | 0x02d#11 => .ok (.sge rd rs1 rs2)
  | f => .error (.func f)

/-- One instruction word (R76, R78); every word that matches no row is reserved (R79). -/
def decode (w : Word) : Except Reserved Instr :=
  let rs1 := regOfBits (rs1Bits w)
  let r2 := regOfBits (r2Bits w)
  let imm := imm16Field w
  match opField w with
  | 0x00#6 => decodeRType w
  | 0x02#6 => .ok (.j (imm26Field w))
  | 0x03#6 => .ok (.jal (imm26Field w))
  | 0x04#6 => .ok (.beqz rs1 (r2Bits w) imm)
  | 0x05#6 => .ok (.bnez rs1 (r2Bits w) imm)
  | 0x08#6 => .ok (.addi r2 rs1 imm)
  | 0x0a#6 => .ok (.subi r2 rs1 imm)
  | 0x0c#6 => .ok (.andi r2 rs1 imm)
  | 0x0d#6 => .ok (.ori r2 rs1 imm)
  | 0x0e#6 => .ok (.xori r2 rs1 imm)
  | 0x14#6 => .ok (.slli r2 rs1 imm)
  | 0x15#6 => if imm26Field w = 0#26 then .ok .nop else .error (.nopTail (imm26Field w))
  | 0x16#6 => .ok (.srli r2 rs1 imm)
  | 0x19#6 => .ok (.snei r2 rs1 imm)
  | 0x1c#6 => .ok (.slei r2 rs1 imm)
  | 0x1d#6 => .ok (.sgei r2 rs1 imm)
  | 0x23#6 => .ok (.lw r2 rs1 imm)
  | 0x2b#6 => .ok (.sw rs1 r2 imm)
  | o => .error (.op o)

/-! ### Bytes of a word (R43) -/

/-- Byte `k` of the four bytes that hold `v`, `k = 0` at the lowest address (R43). -/
def byteOfWord (o : ByteOrder) (v : Word) (k : Nat) : Byte :=
  match o with
  | .big => v.extractLsb' (8 * (3 - k)) 8
  | .little => v.extractLsb' (8 * k) 8

/-- The word held by four bytes, `b0` at the lowest address (R43). -/
def wordOfBytes (o : ByteOrder) (b0 b1 b2 b3 : Byte) : Word :=
  match o with
  | .big => b0 ++ b1 ++ b2 ++ b3
  | .little => b3 ++ b2 ++ b1 ++ b0

/-- The instruction at the head of a string of bytes, and the bytes after it. -/
def decodeBytes (o : ByteOrder) (bytes : List Byte) : Except Reserved (Instr × List Byte) :=
  match bytes with
  | b0 :: b1 :: b2 :: b3 :: rest =>
    match decode (wordOfBytes o b0 b1 b2 b3) with
    | .ok i => .ok (i, rest)
    | .error e => .error e
  | short => .error (.truncated short.length)

/-- The instruction word with the `nbits` bits of `w`, the bits above them zero. -/
def tableWord (nbits w : Nat) : Word := BitVec.ofNat 32 (w % 2 ^ nbits)

/-- What the decoder reads from a row of the opcode table, laid out in memory in the default byte order. -/
def decodeTableWord (nbits w : Nat) : Option Instr :=
  let v := tableWord nbits w
  let byte := byteOfWord Params.default.byteOrder v
  match decodeBytes Params.default.byteOrder [byte 0, byte 1, byte 2, byte 3] with
  | .ok (i, _) => some i
  | .error _ => none

/-! ### The encoder (R71-R78) -/

/-- R format, `op = 0` (R72, R77). -/
def encodeR (func : BitVec 11) (rd rs1 rs2 : RegNum) : Word :=
  0x00#6 ++ bitsOfReg rs1 ++ bitsOfReg rs2 ++ bitsOfReg rd ++ func

/-- I format (R71): `rs1`, then the field `r2`, then the immediate. -/
def encodeI (op : BitVec 6) (rs1 r2 : BitVec 5) (imm : BitVec 16) : Word :=
  op ++ rs1 ++ r2 ++ imm

/-- J format (R73). -/
def encodeJ (op : BitVec 6) (off : BitVec 26) : Word := op ++ off

/-- The word of an instruction. -/
def encode : Instr → Word
  | .add rd rs1 rs2 => encodeR 0x020#11 rd rs1 rs2
  | .addi rd rs1 imm => encodeI 0x08#6 (bitsOfReg rs1) (bitsOfReg rd) imm
  | .and rd rs1 rs2 => encodeR 0x024#11 rd rs1 rs2
  | .andi rd rs1 imm => encodeI 0x0c#6 (bitsOfReg rs1) (bitsOfReg rd) imm
  | .beqz rs1 unused off => encodeI 0x04#6 (bitsOfReg rs1) unused off
  | .bnez rs1 unused off => encodeI 0x05#6 (bitsOfReg rs1) unused off
  | .j off => encodeJ 0x02#6 off
  | .jal off => encodeJ 0x03#6 off
  | .lw rd rs1 disp => encodeI 0x23#6 (bitsOfReg rs1) (bitsOfReg rd) disp
  | .nop => encodeJ 0x15#6 0#26
  | .or rd rs1 rs2 => encodeR 0x025#11 rd rs1 rs2
  | .ori rd rs1 imm => encodeI 0x0d#6 (bitsOfReg rs1) (bitsOfReg rd) imm
  | .sge rd rs1 rs2 => encodeR 0x02d#11 rd rs1 rs2
  | .sgei rd rs1 imm => encodeI 0x1d#6 (bitsOfReg rs1) (bitsOfReg rd) imm
  | .sle rd rs1 rs2 => encodeR 0x02c#11 rd rs1 rs2
  | .slei rd rs1 imm => encodeI 0x1c#6 (bitsOfReg rs1) (bitsOfReg rd) imm
  | .sll rd rs1 rs2 => encodeR 0x004#11 rd rs1 rs2
  | .slli rd rs1 imm => encodeI 0x14#6 (bitsOfReg rs1) (bitsOfReg rd) imm
  | .sne rd rs1 rs2 => encodeR 0x029#11 rd rs1 rs2
  | .snei rd rs1 imm => encodeI 0x19#6 (bitsOfReg rs1) (bitsOfReg rd) imm
  | .srl rd rs1 rs2 => encodeR 0x006#11 rd rs1 rs2
  | .srli rd rs1 imm => encodeI 0x16#6 (bitsOfReg rs1) (bitsOfReg rd) imm
  | .sub rd rs1 rs2 => encodeR 0x022#11 rd rs1 rs2
  | .subi rd rs1 imm => encodeI 0x0a#6 (bitsOfReg rs1) (bitsOfReg rd) imm
  | .sw rs1 rs2 disp => encodeI 0x2b#6 (bitsOfReg rs1) (bitsOfReg rs2) disp
  | .xor rd rs1 rs2 => encodeR 0x026#11 rd rs1 rs2
  | .xori rd rs1 imm => encodeI 0x0e#6 (bitsOfReg rs1) (bitsOfReg rd) imm

/-! ### The opcode table (R78) -/

/-- A row of R78: `w` is the instruction iff `w & mask = bits`. -/
structure Row where
  mnemonic : Mnemonic
  mask : Word
  bits : Word
deriving DecidableEq, Repr

def rowsRType : List Row :=
  [ ⟨.sll, 0xFC0007FF#32, 0x00000004#32⟩, ⟨.srl, 0xFC0007FF#32, 0x00000006#32⟩,
    ⟨.add, 0xFC0007FF#32, 0x00000020#32⟩, ⟨.sub, 0xFC0007FF#32, 0x00000022#32⟩,
    ⟨.and, 0xFC0007FF#32, 0x00000024#32⟩, ⟨.or, 0xFC0007FF#32, 0x00000025#32⟩,
    ⟨.xor, 0xFC0007FF#32, 0x00000026#32⟩, ⟨.sne, 0xFC0007FF#32, 0x00000029#32⟩,
    ⟨.sle, 0xFC0007FF#32, 0x0000002C#32⟩, ⟨.sge, 0xFC0007FF#32, 0x0000002D#32⟩ ]

def rowsImmediate : List Row :=
  [ ⟨.addi, 0xFC000000#32, 0x20000000#32⟩, ⟨.subi, 0xFC000000#32, 0x28000000#32⟩,
    ⟨.andi, 0xFC000000#32, 0x30000000#32⟩, ⟨.ori, 0xFC000000#32, 0x34000000#32⟩,
    ⟨.xori, 0xFC000000#32, 0x38000000#32⟩, ⟨.slli, 0xFC000000#32, 0x50000000#32⟩,
    ⟨.srli, 0xFC000000#32, 0x58000000#32⟩, ⟨.snei, 0xFC000000#32, 0x64000000#32⟩,
    ⟨.slei, 0xFC000000#32, 0x70000000#32⟩, ⟨.sgei, 0xFC000000#32, 0x74000000#32⟩ ]

def rowsOther : List Row :=
  [ ⟨.lw, 0xFC000000#32, 0x8C000000#32⟩, ⟨.sw, 0xFC000000#32, 0xAC000000#32⟩,
    ⟨.beqz, 0xFC000000#32, 0x10000000#32⟩, ⟨.bnez, 0xFC000000#32, 0x14000000#32⟩,
    ⟨.j, 0xFC000000#32, 0x08000000#32⟩, ⟨.jal, 0xFC000000#32, 0x0C000000#32⟩,
    ⟨.nop, 0xFFFFFFFF#32, 0x54000000#32⟩ ]

/-- The 27 rows of R78. -/
def opcodeRows : List Row := rowsRType ++ rowsImmediate ++ rowsOther

end Sys2Proof
end

