-- ==== Sys2Proof/Machine/Memory.lean ====
section
/-! DEFINITION. Machine/Memory.lean: byte maps in one canonical form, and the words in them (`20_memory.md` R40, R43, R57). -/

namespace Sys2Proof.Machine

/-- Bytes by strictly rising address: the data memory, and the bytes of the program text. -/
abbrev Memory := List Host.Cell

/-- What a byte of data memory reads as when the list does not name its address. The spec gives none (R34, D27):
DESIGN CHOICE, unsafe, log 3. -/
def unlistedByte : Byte := 0x00#8

/-! ### Byte maps -/

/-- The byte listed at an address. -/
def cellAt : Memory → Nat → Option Byte
  | [], _ => none
  | c :: cs, a => if c.1 = a then some c.2 else cellAt cs a

/-- List byte `b` at address `a`, in its place by address. -/
def putCell : Memory → Nat → Byte → Memory
  | [], a, b => [(a, b)]
  | c :: cs, a, b =>
    if a < c.1 then (a, b) :: c :: cs
    else if c.1 = a then (a, b) :: cs
    else c :: putCell cs a b

/-- List no byte at address `a`. -/
def dropCell : Memory → Nat → Memory
  | [], _ => []
  | c :: cs, a => if c.1 = a then dropCell cs a else c :: dropCell cs a

/-- Addresses rise strictly, and all lie in the 32-bit address space (R40). -/
abbrev cellsRise (m : Memory) : Prop :=
  m.Pairwise (fun c d => c.1 < d.1) ∧ ∀ c ∈ m, c.1 < 2 ^ 32

/-! ### The data memory -/

/-- The canonical form: rising addresses of the address space, and no byte listed with the value an unlisted one has. -/
abbrev Memory.wf (m : Memory) : Prop :=
  cellsRise m ∧ ∀ c ∈ m, c.2 ≠ unlistedByte

/-- One byte of data memory. -/
def Memory.readByte (m : Memory) (a : Nat) : Byte := (cellAt m a).getD unlistedByte

/-- Store one byte, keeping the canonical form. -/
def Memory.writeByte (m : Memory) (a : Nat) (b : Byte) : Memory :=
  if b = unlistedByte then dropCell m a else putCell m a b

/-- The word at byte addresses `a .. a + 3` (R40, R43). -/
def Memory.readWord (o : ByteOrder) (m : Memory) (a : Nat) : Word :=
  wordOfBytes o (m.readByte a) (m.readByte (a + 1)) (m.readByte (a + 2)) (m.readByte (a + 3))

/-- Store a word at byte addresses `a .. a + 3` (R43). -/
def Memory.writeWord (o : ByteOrder) (m : Memory) (a : Nat) (v : Word) : Memory :=
  let m0 := m.writeByte a (byteOfWord o v 0)
  let m1 := m0.writeByte (a + 1) (byteOfWord o v 1)
  let m2 := m1.writeByte (a + 2) (byteOfWord o v 2)
  m2.writeByte (a + 3) (byteOfWord o v 3)

/-! ### The program text -/

/-- The instruction word at byte addresses `a .. a + 3`; nothing where one of the four bytes is absent (log 10). -/
def textWord (o : ByteOrder) (t : Memory) (a : Nat) : Option Word :=
  match cellAt t a, cellAt t (a + 1), cellAt t (a + 2), cellAt t (a + 3) with
  | some b0, some b1, some b2, some b3 => some (wordOfBytes o b0 b1 b2 b3)
  | _, _, _, _ => none

/-- Place an instruction word in the text: what a host does before a run (R206). -/
def putTextWord (o : ByteOrder) (t : Memory) (a : Nat) (w : Word) : Memory :=
  let t0 := putCell t a (byteOfWord o w 0)
  let t1 := putCell t0 (a + 1) (byteOfWord o w 1)
  let t2 := putCell t1 (a + 2) (byteOfWord o w 2)
  putCell t2 (a + 3) (byteOfWord o w 3)

end Sys2Proof.Machine
end

