-- ==== Sys2Proof/Machine/State.lean ====
section
/-! DEFINITION. Machine/State.lean: the state of the machine and why it stops (`10_state.md`, `60_exceptions.md`). -/

namespace Sys2Proof.Machine

/-- The model-level faults of R181, each with the info it records. They are terminal (R182) and no architectural traps:
each stands where the source says nothing of what the hardware does, so stopping is safe. -/
inductive Fault
  /-- Raised by every step at fetch: `pc mod 4 ≠ 0` (R45). Safe. -/
  | misalignedFetch (pc : Word)
  /-- Raised by every step at fetch: `pc` is not in `dom(Text)` (R49). Safe. -/
  | unmappedFetch (pc : Word)
  /-- Raised by every step at decode: the fetched word is reserved (R79). Safe. -/
  | illegalInstruction (w pc : Word)
  /-- Raised by `lw` and `sw`: `EA mod 4 ≠ 0` (R44). Safe. -/
  | misalignedAccess (ea : Word)
  /-- Raised by `lw` and `sw`: `TEXT_GUARD` and `EA` in `dom(Text)` (R41). Safe. -/
  | textAccess (ea : Word)
  /-- Raised by `lw` and `sw`: `Mapped(EA)` does not hold (R42). Safe. -/
  | unmappedAccess (ea : Word)
deriving DecidableEq, Repr

/-- Why the model answers no state and no fault. -/
inductive Refusal
  /-- Answered by an arm of `exec` whose instruction has no meaning yet; no arm is left so. Safe. -/
  | notModelled (mnemonic : String)
  /-- Answered by `step` in a state whose run is over: an `Ended` state has no step (R205, log 6). Safe. -/
  | runEnded
deriving DecidableEq, Repr

/-- The run status of R36: the spec's own bookkeeping, not hardware state. -/
inductive Status
  | running
  | ended
  | faulted (r : Fault)
deriving DecidableEq, Repr

/-- The complete state: the tuple of R36, and the parameters of the run (R4, log 1). -/
structure State where
  /-- `x[1] .. x[31]`, `x[n]` at place `n - 1` (R20, R36). `x[0]` has no storage (R21). -/
  x : Vector Word 31
  /-- The program counter (R24). -/
  pc : Word
  /-- The data memory (R30). -/
  mem : Memory
  /-- The run status (R36). -/
  status : Status
  /-- `Text`, `Mapped`, `BYTE_ORDER`, `TEXT_GUARD`, `RESET_PC`, `END_PC`: written by no instruction (R4, R9). -/
  params : Params
deriving DecidableEq, Repr

/-- The state at the first step of a run with parameters `p`, for any launch values of the registers and the data memory
(R32-R34, R36, R200, R206). -/
def State.launch (p : Params) (x : Vector Word 31) (mem : Memory) : State where
  x := x
  pc := p.resetPc
  mem := mem
  status := .running
  params := p

/-- The reset value the model names for `x[1] .. x[31]`; the spec gives none (R33, D27): DESIGN CHOICE, unsafe, log 2. -/
def resetRegisters : Vector Word 31 := Vector.replicate 31 0x00000000#32

/-- The machine right after reset: the launch with the default parameters, the registers of log 2 and nothing placed in
memory (R200; logs 2, 3, 4, 8). -/
def State.reset : State := State.launch Params.default resetRegisters []

end Sys2Proof.Machine
end

