-- ==== Sys2Proof/Machine/Flags.lean ====
section
/-! DEFINITION. Machine/Flags.lean: conditions. The machine has no flag (`10_state.md` R27): a comparison writes 1 or 0 into a
general register and a branch tests one against zero. -/

namespace Sys2Proof.Machine

/-- The result of a set instruction (R112). -/
def boolWord (c : Bool) : Word := if c then 0x00000001#32 else 0x00000000#32

/-- `signed(a) >= signed(b)` (R112). -/
def signedGe (a b : Word) : Bool := decide (b.toInt ≤ a.toInt)

/-- `signed(a) <= signed(b)` (R112). -/
def signedLe (a b : Word) : Bool := decide (a.toInt ≤ b.toInt)

/-- All 32 bits compared (R112, R106). -/
def notEqual (a b : Word) : Bool := decide (a ≠ b)

/-- The test of `beqz` and `bnez`, on all 32 bits (R151, R152). -/
def isZero (a : Word) : Bool := decide (a = 0x00000000#32)

end Sys2Proof.Machine
end

