-- ==== Sys2Proof/Machine/Operands.lean ====
section
/-! DEFINITION. Machine/Operands.lean: registers, immediates, shift amounts, effective addresses and targets
(`10_state.md` R21, `30_encoding.md` R75, `20_memory.md` R58, `44_control.md` R150). -/

namespace Sys2Proof.Machine

/-! ### Registers -/

/-- `x[r]`; `x[0]` reads as zero (R21, log 11). -/
def State.reg (s : State) (r : RegNum) : Word :=
  if h : r.val = 0 then 0x00000000#32 else s.x[r.val - 1]'(by omega)

/-- `x[r] <- v`; no effect when `r = 0` (R21, log 11). -/
def State.setReg (s : State) (r : RegNum) (v : Word) : State :=
  if h : r.val = 0 then s else { s with x := s.x.set (r.val - 1) v (by omega) }

/-- `pc <- t`. -/
def State.setPc (s : State) (t : Word) : State := { s with pc := t }

/-- `A + 4`, the address of the next instruction, modulo `2^32` (R25). -/
def State.nextPc (s : State) : Word := s.pc + 4#32

/-! ### Immediates (R75) -/

/-- `sext_16`. -/
def sext16 (imm : BitVec 16) : Word := imm.signExtend 32

/-- `zext_16`. -/
def zext16 (imm : BitVec 16) : Word := imm.setWidth 32

/-- `sext_26`. -/
def sext26 (off : BitVec 26) : Word := off.signExtend 32

/-- The shift amount in a register: its low five bits (R113). -/
def shamtOfWord (b : Word) : Nat := (b.extractLsb' 0 5).toNat

/-- The shift amount of `slli` and `srli`: `w[4:0]`, the low five bits of `imm16` (R75, R113). -/
def shamtOfImm (imm : BitVec 16) : Nat := (imm.extractLsb' 0 5).toNat

/-! ### Addresses -/

/-- The effective address of `lw` and `sw`: base plus signed displacement, modulo `2^32` (R58). -/
def effAddr (s : State) (rs1 : RegNum) (disp : BitVec 16) : Word := s.reg rs1 + sext16 disp

/-- The target of a taken transfer: `A + 4 + off`, modulo `2^32` (R150). -/
def target (s : State) (off : Word) : Word := s.nextPc + off

end Sys2Proof.Machine
end

