-- ==== Sys2Proof/Machine/Ops.lean ====
section
/-! DEFINITION. Machine/Ops.lean: the named operations over the state: raising a fault, the memory primitives, the common
execution of each instruction group. -/

namespace Sys2Proof.Machine

/-! ### Faults (`60_exceptions.md`)

There is no trap entry and no return (R185, R186): nothing is saved and control goes nowhere. Raising a fault is the
one shared operation, and a faulted machine is never resumed. -/

/-- `raise F(info)` (R6, R182): the step has no effect but to stop the machine with that fault. -/
def raise (r : Fault) : Host.Outcome State Fault Refusal := .fault r

/-- The state of a machine that has raised `r`: as before the step, but for the status (R182). -/
def State.raised (s : State) (r : Fault) : State := { s with status := .faulted r }

/-- The state of a machine whose run is over: as before, but for the status (R202). -/
def State.ended (s : State) : State := { s with status := .ended }

/-- Go on in a state, or raise the fault. -/
def complete (e : Except Fault State) : Host.Outcome State Fault Refusal :=
  match e with
  | .ok s => .next s
  | .error r => raise r

/-! ### The address map (`20_memory.md` R41, R42) -/

/-- `Mapped(a)`. -/
def mappedAt (p : Params) (a : Word) : Bool :=
  p.mapped.any fun r => decide (r.first ≤ a.toNat) && decide (a.toNat ≤ r.last)

/-- `Text(a)`. -/
def textAt (p : Params) (a : Word) : Option Word := textWord p.byteOrder p.text a.toNat

/-- `a` is in `dom(Text)`. -/
def inText (p : Params) (a : Word) : Bool := (textAt p a).isSome

/-- `a mod 4 = 0`. -/
def aligned (a : Word) : Bool := decide (a.toNat % 4 = 0)

/-- `END_PC` (R202). The default is the address just past the last word of `Text`; an empty `Text` has none (log 5). -/
def endAddr (p : Params) : Option Word :=
  match p.endPc with
  | some a => some a
  | none => p.text.getLast?.map fun c => BitVec.ofNat 32 (c.1 / 4 * 4 + 4)

/-! ### The memory primitives (R47-R49) -/

/-- The three checks of R47 and R48, in their order. -/
def accessFault (p : Params) (a : Word) : Option Fault :=
  if !aligned a then some (.misalignedAccess a)
  else if p.textGuard && inText p a then some (.textAccess a)
  else if !mappedAt p a then some (.unmappedAccess a)
  else none

/-- `MemRead(addr, 4)` (R47). -/
def memRead (s : State) (a : Word) : Except Fault Word :=
  match accessFault s.params a with
  | some r => .error r
  | none => .ok (s.mem.readWord s.params.byteOrder a.toNat)

/-- `MemWrite(addr, 4, v)` (R48). -/
def memWrite (s : State) (a v : Word) : Except Fault State :=
  match accessFault s.params a with
  | some r => .error r
  | none => .ok { s with mem := s.mem.writeWord s.params.byteOrder a.toNat v }

/-- `Fetch(addr)` (R49). -/
def fetch (s : State) (a : Word) : Except Fault Word :=
  if !aligned a then .error (.misalignedFetch a)
  else match textAt s.params a with
    | none => .error (.unmappedFetch a)
    | some w => .ok w

/-! ### Common execution -/

/-- Write one register, then `pc <- A + 4` (R110, R130). -/
def writeAndAdvance (s : State) (rd : RegNum) (v : Word) : State := (s.setReg rd v).setPc s.nextPc

/-- An R-type ALU instruction (R110): both reads precede the write. -/
def aluRegReg (f : Word → Word → Word) (rd rs1 rs2 : RegNum) (s : State) : Host.Outcome State Fault Refusal :=
  .next (writeAndAdvance s rd (f (s.reg rs1) (s.reg rs2)))

/-- An I-type ALU instruction with the operand `m` formed from its immediate (R130). -/
def aluRegImm (f : Word → Word → Word) (rd rs1 : RegNum) (m : Word) (s : State) : Host.Outcome State Fault Refusal :=
  .next (writeAndAdvance s rd (f (s.reg rs1) m))

/-- A shift by an amount already taken from its five bits (R113). -/
def aluShift (f : Word → Nat → Word) (rd rs1 : RegNum) (n : Nat) (s : State) : Host.Outcome State Fault Refusal :=
  .next (writeAndAdvance s rd (f (s.reg rs1) n))

/-- Go to `A + 4 + off` if the condition holds, else to `A + 4` (R150, R155). -/
def branchIf (c : Bool) (off : Word) (s : State) : Host.Outcome State Fault Refusal :=
  .next (s.setPc (if c then target s off else s.nextPc))

end Sys2Proof.Machine
end

