-- ==== Sys2Proof/Machine/AluRegister.lean ====
section
/-! DEFINITION. Machine/AluRegister.lean: the ten register-register ALU instructions, `41_alu_rtype.md`. -/

namespace Sys2Proof.Machine

/-- Modulo `2^32`, no overflow trap (R111, log 13). -/
def aluAdd (a b : Word) : Word := a + b

/-- First source minus second, modulo `2^32` (R108, R111, log 13). -/
def aluSub (a b : Word) : Word := a - b

def aluAnd (a b : Word) : Word := a &&& b
def aluOr (a b : Word) : Word := a ||| b
def aluXor (a b : Word) : Word := a ^^^ b

/-- Zeros enter at bit 0 (R113). -/
def aluShiftLeft (a : Word) (n : Nat) : Word := a <<< n

/-- A logical shift, zeros enter at bit 31 (R113, C5). -/
def aluShiftRight (a : Word) (n : Nat) : Word := a >>> n

def aluSge (a b : Word) : Word := boolWord (signedGe a b)
def aluSle (a b : Word) : Word := boolWord (signedLe a b)
def aluSne (a b : Word) : Word := boolWord (notEqual a b)

/-- R100. -/
def execAdd (rd rs1 rs2 : RegNum) (s : State) : Host.Outcome State Fault Refusal := aluRegReg aluAdd rd rs1 rs2 s

/-- R101. -/
def execAnd (rd rs1 rs2 : RegNum) (s : State) : Host.Outcome State Fault Refusal := aluRegReg aluAnd rd rs1 rs2 s

/-- R102. -/
def execOr (rd rs1 rs2 : RegNum) (s : State) : Host.Outcome State Fault Refusal := aluRegReg aluOr rd rs1 rs2 s

/-- R103. -/
def execSge (rd rs1 rs2 : RegNum) (s : State) : Host.Outcome State Fault Refusal := aluRegReg aluSge rd rs1 rs2 s

/-- R104. -/
def execSle (rd rs1 rs2 : RegNum) (s : State) : Host.Outcome State Fault Refusal := aluRegReg aluSle rd rs1 rs2 s

/-- R105: the amount is the low five bits of `x[rs2]`. -/
def execSll (rd rs1 rs2 : RegNum) (s : State) : Host.Outcome State Fault Refusal :=
  aluShift aluShiftLeft rd rs1 (shamtOfWord (s.reg rs2)) s

/-- R106. -/
def execSne (rd rs1 rs2 : RegNum) (s : State) : Host.Outcome State Fault Refusal := aluRegReg aluSne rd rs1 rs2 s

/-- R107: the amount is the low five bits of `x[rs2]`. -/
def execSrl (rd rs1 rs2 : RegNum) (s : State) : Host.Outcome State Fault Refusal :=
  aluShift aluShiftRight rd rs1 (shamtOfWord (s.reg rs2)) s

/-- R108. -/
def execSub (rd rs1 rs2 : RegNum) (s : State) : Host.Outcome State Fault Refusal := aluRegReg aluSub rd rs1 rs2 s

/-- R109, with the source's `F[Rs1]` read as the general register (C6). -/
def execXor (rd rs1 rs2 : RegNum) (s : State) : Host.Outcome State Fault Refusal := aluRegReg aluXor rd rs1 rs2 s

end Sys2Proof.Machine
end

