-- ==== Sys2Proof/Machine/AluImmediate.lean ====
section
/-! DEFINITION. Machine/AluImmediate.lean: the ten register-immediate ALU instructions, `42_alu_itype.md`. -/

namespace Sys2Proof.Machine

/-- R120. -/
def execAddi (rd rs1 : RegNum) (imm : BitVec 16) (s : State) : Host.Outcome State Fault Refusal :=
  aluRegImm aluAdd rd rs1 (sext16 imm) s

/-- R121. -/
def execAndi (rd rs1 : RegNum) (imm : BitVec 16) (s : State) : Host.Outcome State Fault Refusal :=
  aluRegImm aluAnd rd rs1 (zext16 imm) s

/-- R122. -/
def execOri (rd rs1 : RegNum) (imm : BitVec 16) (s : State) : Host.Outcome State Fault Refusal :=
  aluRegImm aluOr rd rs1 (zext16 imm) s

/-- R123. -/
def execSgei (rd rs1 : RegNum) (imm : BitVec 16) (s : State) : Host.Outcome State Fault Refusal :=
  aluRegImm aluSge rd rs1 (sext16 imm) s

/-- R124. -/
def execSlei (rd rs1 : RegNum) (imm : BitVec 16) (s : State) : Host.Outcome State Fault Refusal :=
  aluRegImm aluSle rd rs1 (sext16 imm) s

/-- R125; the source has no semantic entry for `slli` (D15, log 15). -/
def execSlli (rd rs1 : RegNum) (imm : BitVec 16) (s : State) : Host.Outcome State Fault Refusal :=
  aluShift aluShiftLeft rd rs1 (shamtOfImm imm) s

/-- R126. -/
def execSnei (rd rs1 : RegNum) (imm : BitVec 16) (s : State) : Host.Outcome State Fault Refusal :=
  aluRegImm aluSne rd rs1 (sext16 imm) s

/-- R127. -/
def execSrli (rd rs1 : RegNum) (imm : BitVec 16) (s : State) : Host.Outcome State Fault Refusal :=
  aluShift aluShiftRight rd rs1 (shamtOfImm imm) s

/-- R128. -/
def execSubi (rd rs1 : RegNum) (imm : BitVec 16) (s : State) : Host.Outcome State Fault Refusal :=
  aluRegImm aluSub rd rs1 (sext16 imm) s

/-- R129. -/
def execXori (rd rs1 : RegNum) (imm : BitVec 16) (s : State) : Host.Outcome State Fault Refusal :=
  aluRegImm aluXor rd rs1 (zext16 imm) s

end Sys2Proof.Machine
end

