-- ==== Sys2Proof/Machine/Control.lean ====
section
/-! DEFINITION. Machine/Control.lean: control transfer and `nop`, `44_control.md`, `45_nop.md`. No delay slots (R155, log 14). -/

namespace Sys2Proof.Machine

/-- R151; the `r2` field is ignored (R78 (c)). -/
def execBeqz (rs1 : RegNum) (off : BitVec 16) (s : State) : Host.Outcome State Fault Refusal :=
  branchIf (isZero (s.reg rs1)) (sext16 off) s

/-- R152; the `r2` field is ignored (R78 (c)). -/
def execBnez (rs1 : RegNum) (off : BitVec 16) (s : State) : Host.Outcome State Fault Refusal :=
  branchIf (!isZero (s.reg rs1)) (sext16 off) s

/-- R153. -/
def execJ (off : BitVec 26) (s : State) : Host.Outcome State Fault Refusal :=
  .next (s.setPc (target s (sext26 off)))

/-- R154: the link is `A + 4`, written also when the target is bad (R156). -/
def execJal (off : BitVec 26) (s : State) : Host.Outcome State Fault Refusal :=
  .next ((s.setReg linkReg s.nextPc).setPc (target s (sext26 off)))

/-- R170. -/
def execNop (s : State) : Host.Outcome State Fault Refusal := .next (s.setPc s.nextPc)

end Sys2Proof.Machine
end

