-- ==== Sys2Proof/Machine/LoadStore.lean ====
section
/-! DEFINITION. Machine/LoadStore.lean: `lw` and `sw`, `43_load_store.md`. -/

namespace Sys2Proof.Machine

/-- `lw` up to its outcome: the access with all its checks, also for destination 0 (R80, R141). -/
def loadWord (rd rs1 : RegNum) (disp : BitVec 16) (s : State) : Except Fault State :=
  match memRead s (effAddr s rs1 disp) with
  | .ok v => .ok (writeAndAdvance s rd v)
  | .error r => .error r

/-- `sw` up to its outcome (R142). -/
def storeWord (rs1 rs2 : RegNum) (disp : BitVec 16) (s : State) : Except Fault State :=
  match memWrite s (effAddr s rs1 disp) (s.reg rs2) with
  | .ok t => .ok (t.setPc s.nextPc)
  | .error r => .error r

/-- R141. -/
def execLw (rd rs1 : RegNum) (disp : BitVec 16) (s : State) : Host.Outcome State Fault Refusal :=
  complete (loadWord rd rs1 disp s)

/-- R142. -/
def execSw (rs1 rs2 : RegNum) (disp : BitVec 16) (s : State) : Host.Outcome State Fault Refusal :=
  complete (storeWord rs1 rs2 disp s)

end Sys2Proof.Machine
end

