-- ==== Sys2Proof/Machine/Fetch.lean ====
section
/-! DEFINITION. Machine/Fetch.lean: what a step does before an instruction's own rule (`70_reset_and_hazards.md` R205, steps 1
to 3), and placing an instruction where it is fetched. -/

namespace Sys2Proof.Machine

/-- A step either comes to run an instruction, or is already decided. -/
inductive Issue
  | run (i : Instr)
  | done (o : Host.Outcome State Fault Refusal)
deriving Repr

/-- Fetch and decode at `pc` (R205 steps 2 and 3, R184). -/
def issueAt (s : State) : Issue :=
  match fetch s s.pc with
  | .error r => .done (raise r)
  | .ok w =>
    match decode w with
    | .error _ => .done (raise (.illegalInstruction w s.pc))
    | .ok i => .run i

/-- R205 up to step 3: a stopped machine has no step (log 6), then the end-of-run test, then fetch and decode. -/
def issue (s : State) : Issue :=
  match s.status with
  | .ended => .done (.refused .runEnded)
  | .faulted r => .done (raise r)
  | .running =>
    if endAddr s.params = some s.pc then .done (.next s.ended)
    else issueAt s

/-- `pc` with its two low bits cleared: where an instruction can stand. -/
def slotOf (s : State) : Word := s.pc &&& 0xFFFFFFFC#32

/-- The parameters with `w` placed in the text at `a`, and `END_PC` moved past `a` if it would be `a` itself (log 8). -/
def paramsWithWord (p : Params) (a w : Word) : Params :=
  let q : Params := { p with text := putTextWord p.byteOrder p.text a.toNat w }
  if endAddr q = some a then { q with endPc := some (a + 4#32) } else q

/-- `s` with the instruction word `w` placed where the next step fetches, and that step enabled (log 8). -/
def State.placeWord (s : State) (w : Word) : State :=
  { s with pc := slotOf s, status := .running, params := paramsWithWord s.params (slotOf s) w }

end Sys2Proof.Machine
end

