-- ==== Sys2Proof/Machine/Step.lean ====
section
/-! DEFINITION. Machine/Step.lean: one step of the machine, `70_reset_and_hazards.md` R205. -/

namespace Sys2Proof.Machine

/-- One step (R205). -/
def step (s : State) : Host.Outcome State Fault Refusal :=
  match issue s with
  | .done o => o
  | .run i => exec i s

/-- `s` with the instruction of an opcode table row stored where `step` fetches next (log 8). -/
def State.withFetchWord (s : State) (nbits w : Nat) : State := s.placeWord (tableWord nbits w)

end Sys2Proof.Machine
end

