-- ==== Sys2Proof/Machine/Assembler.lean ====
section
/-! DEFINITION. Machine/Assembler.lean: assembler lines and the instructions they stand for, `30_encoding.md` R82-R84, R75.

The machine does not read assembler text; this is the spec's field mapping from operands to words. Comments, directives,
label definitions and number bases are not in the source (N28), so a line is taken after its text has been read: a
mnemonic and its operands, each label already an address. -/

namespace Sys2Proof.Machine

/-- The operand shapes of R82. -/
inductive AsmOperand
  /-- `r0` .. `r31`. -/
  | reg (r : RegNum)
  /-- `#value`. -/
  | imm (value : Int)
  /-- `disp(rN)`, or `label+disp(rN)` (C9). -/
  | mem (label : Option Word) (disp : Int) (base : RegNum)
  /-- A label as branch or jump operand, by its address. -/
  | label (address : Word)
deriving DecidableEq, Repr

structure AsmLine where
  mnemonic : Mnemonic
  operands : List AsmOperand
deriving DecidableEq, Repr

/-! ### Fields from values: the ranges of R75; a value outside its range has no encoding (N34) -/

def simm16OfInt (v : Int) : Option (BitVec 16) :=
  if -32768 ≤ v ∧ v ≤ 32767 then some (BitVec.ofInt 16 v) else none

def uimm16OfInt (v : Int) : Option (BitVec 16) :=
  if 0 ≤ v ∧ v ≤ 65535 then some (BitVec.ofInt 16 v) else none

def shamtOfInt (v : Int) : Option (BitVec 16) :=
  if 0 ≤ v ∧ v ≤ 31 then some (BitVec.ofInt 16 v) else none

def simm26OfInt (v : Int) : Option (BitVec 26) :=
  if -33554432 ≤ v ∧ v ≤ 33554431 then some (BitVec.ofInt 26 v) else none

/-- The byte offset of a label, `target - (A + 4)` modulo `2^32`, as a signed number (R83). -/
def labelOffset (addr lab : Word) : Int := (lab - (addr + 4#32)).toInt

/-- The displacement field of a memory operand (R82, C9: the sum must fit `imm16`). -/
def dispOf (lab : Option Word) (disp : Int) : Option (BitVec 16) :=
  match lab with
  | none => simm16OfInt disp
  | some l => simm16OfInt (l.toNat + disp)

/-! ### The operand orders of R82 -/

def asmRegReg (mk : RegNum → RegNum → RegNum → Instr) (ops : List AsmOperand) : Option Instr :=
  match ops with
  | [.reg rd, .reg rs1, .reg rs2] => some (mk rd rs1 rs2)
  | _ => none

def asmRegImm (field : Int → Option (BitVec 16)) (mk : RegNum → RegNum → BitVec 16 → Instr)
    (ops : List AsmOperand) : Option Instr :=
  match ops with
  | [.reg rd, .reg rs1, .imm v] => (field v).map (mk rd rs1)
  | _ => none

def asmLoad (ops : List AsmOperand) : Option Instr :=
  match ops with
  | [.reg rd, .mem lab disp rs1] => (dispOf lab disp).map (.lw rd rs1)
  | _ => none

def asmStore (ops : List AsmOperand) : Option Instr :=
  match ops with
  | [.mem lab disp rs1, .reg rs2] => (dispOf lab disp).map (.sw rs1 rs2)
  | _ => none

/-- A branch takes a label; a number there has no meaning (R83, U18). -/
def asmBranch (addr : Word) (mk : RegNum → BitVec 5 → BitVec 16 → Instr) (ops : List AsmOperand) : Option Instr :=
  match ops with
  | [.reg rs1, .label lab] => (simm16OfInt (labelOffset addr lab)).map (mk rs1 0#5)
  | _ => none

def asmJump (addr : Word) (mk : BitVec 26 → Instr) (ops : List AsmOperand) : Option Instr :=
  match ops with
  | [.label lab] => (simm26OfInt (labelOffset addr lab)).map mk
  | _ => none

def asmNop (ops : List AsmOperand) : Option Instr :=
  match ops with
  | [] => some .nop
  | _ => none

/-- The instruction a line at address `addr` stands for. -/
def assemble (addr : Word) (l : AsmLine) : Option Instr :=
  match l.mnemonic with
  | .add => asmRegReg .add l.operands
  | .addi => asmRegImm simm16OfInt .addi l.operands
  | .and => asmRegReg .and l.operands
  | .andi => asmRegImm uimm16OfInt .andi l.operands
  | .beqz => asmBranch addr .beqz l.operands
  | .bnez => asmBranch addr .bnez l.operands
  | .j => asmJump addr .j l.operands
  | .jal => asmJump addr .jal l.operands
  | .lw => asmLoad l.operands
  | .nop => asmNop l.operands
  | .or => asmRegReg .or l.operands
  | .ori => asmRegImm uimm16OfInt .ori l.operands
  | .sge => asmRegReg .sge l.operands
  | .sgei => asmRegImm simm16OfInt .sgei l.operands
  | .sle => asmRegReg .sle l.operands
  | .slei => asmRegImm simm16OfInt .slei l.operands
  | .sll => asmRegReg .sll l.operands
  | .slli => asmRegImm shamtOfInt .slli l.operands
  | .sne => asmRegReg .sne l.operands
  | .snei => asmRegImm simm16OfInt .snei l.operands
  | .srl => asmRegReg .srl l.operands
  | .srli => asmRegImm shamtOfInt .srli l.operands
  | .sub => asmRegReg .sub l.operands
  | .subi => asmRegImm simm16OfInt .subi l.operands
  | .sw => asmStore l.operands
  | .xor => asmRegReg .xor l.operands
  | .xori => asmRegImm uimm16OfInt .xori l.operands

/-! ### The line that spells an instruction -/

/-- The operands of an instruction at address `addr`, in the order of R82. -/
def asmOperands (addr : Word) (i : Instr) : List AsmOperand :=
  match i with
  | .add rd rs1 rs2 => [.reg rd, .reg rs1, .reg rs2]
  | .addi rd rs1 imm => [.reg rd, .reg rs1, .imm imm.toInt]
  | .and rd rs1 rs2 => [.reg rd, .reg rs1, .reg rs2]
  | .andi rd rs1 imm => [.reg rd, .reg rs1, .imm imm.toNat]
  | .beqz rs1 _ off => [.reg rs1, .label (addr + 4#32 + off.signExtend 32)]
  | .bnez rs1 _ off => [.reg rs1, .label (addr + 4#32 + off.signExtend 32)]
  | .j off => [.label (addr + 4#32 + off.signExtend 32)]
  | .jal off => [.label (addr + 4#32 + off.signExtend 32)]
  | .lw rd rs1 disp => [.reg rd, .mem none disp.toInt rs1]
  | .nop => []
  | .or rd rs1 rs2 => [.reg rd, .reg rs1, .reg rs2]
  | .ori rd rs1 imm => [.reg rd, .reg rs1, .imm imm.toNat]
  | .sge rd rs1 rs2 => [.reg rd, .reg rs1, .reg rs2]
  | .sgei rd rs1 imm => [.reg rd, .reg rs1, .imm imm.toInt]
  | .sle rd rs1 rs2 => [.reg rd, .reg rs1, .reg rs2]
  | .slei rd rs1 imm => [.reg rd, .reg rs1, .imm imm.toInt]
  | .sll rd rs1 rs2 => [.reg rd, .reg rs1, .reg rs2]
  | .slli rd rs1 imm => [.reg rd, .reg rs1, .imm imm.toNat]
  | .sne rd rs1 rs2 => [.reg rd, .reg rs1, .reg rs2]
  | .snei rd rs1 imm => [.reg rd, .reg rs1, .imm imm.toInt]
  | .srl rd rs1 rs2 => [.reg rd, .reg rs1, .reg rs2]
  | .srli rd rs1 imm => [.reg rd, .reg rs1, .imm imm.toNat]
  | .sub rd rs1 rs2 => [.reg rd, .reg rs1, .reg rs2]
  | .subi rd rs1 imm => [.reg rd, .reg rs1, .imm imm.toInt]
  | .sw rs1 rs2 disp => [.mem none disp.toInt rs1, .reg rs2]
  | .xor rd rs1 rs2 => [.reg rd, .reg rs1, .reg rs2]
  | .xori rd rs1 imm => [.reg rd, .reg rs1, .imm imm.toNat]

/-- The line that spells an instruction standing at address `addr`. -/
def disassemble (addr : Word) (i : Instr) : AsmLine := { mnemonic := i.mnemonic, operands := asmOperands addr i }

/-! ### The text of a line, as the source's examples write it (R82) -/

def mnemonicText (m : Mnemonic) : String :=
  match m with
  | .add => "add" | .addi => "addi" | .and => "and" | .andi => "andi" | .beqz => "beqz" | .bnez => "bnez"
  | .j => "j" | .jal => "jal" | .lw => "lw" | .nop => "nop" | .or => "or" | .ori => "ori"
  | .sge => "sge" | .sgei => "sgei" | .sle => "sle" | .slei => "slei" | .sll => "sll" | .slli => "slli"
  | .sne => "sne" | .snei => "snei" | .srl => "srl" | .srli => "srli" | .sub => "sub" | .subi => "subi"
  | .sw => "sw" | .xor => "xor" | .xori => "xori"

def operandText (nameOf : Word → String) (o : AsmOperand) : String :=
  match o with
  | .reg r => "r" ++ toString r.val
  | .imm v => "#" ++ toString v
  | .mem none d r => toString d ++ "(r" ++ toString r.val ++ ")"
  | .mem (some l) d r => nameOf l ++ "+" ++ toString d ++ "(r" ++ toString r.val ++ ")"
  | .label l => nameOf l

/-- The text of a line, labels written by their names. -/
def lineText (nameOf : Word → String) (l : AsmLine) : String :=
  mnemonicText l.mnemonic ++ (if l.operands = [] then "" else " ")
    ++ String.intercalate "," (l.operands.map (operandText nameOf))

end Sys2Proof.Machine
end

