-- ==== Sys2Proof/Safety.lean ====
section
/-! DEFINITION. Safety.lean: the terms claims are made in: the spec's own readings of a word, what an instruction may touch,
the invariant of the machine, runs, and when two states look alike. -/

namespace Sys2Proof.Machine

/-! ### The spec's readings of a word (R5, R6), kept apart from the model's own operations -/

/-- `w[hi:lo]`, an unsigned integer (R5). -/
def slice (w : Word) (hi lo : Nat) : Nat := w.toNat / 2 ^ lo % 2 ^ (hi - lo + 1)

/-- `signed(v)` (R6). -/
def signedVal (v : Word) : Int := if v.toNat < 2 ^ 31 then (v.toNat : Int) else (v.toNat : Int) - 2 ^ 32

/-- The number an `n`-bit two's complement field stands for: what `sext_N` keeps (R6). -/
def fieldVal {n : Nat} (v : BitVec n) : Int :=
  if v.toNat < 2 ^ (n - 1) then (v.toNat : Int) else (v.toNat : Int) - 2 ^ n

/-- `v mod 2^32`, as a word. -/
def wrap (v : Int) : Word := BitVec.ofInt 32 v

/-! ### Signed overflow (R111) -/

/-- "operands of equal sign and result of the other sign". -/
def addOverflows (a b : Word) : Bool :=
  (decide (signedVal a < 0) == decide (signedVal b < 0))
    && (decide (signedVal (wrap (a.toNat + b.toNat)) < 0) != decide (signedVal a < 0))

/-- "operands of different sign and result sign different from `a`". -/
def subOverflows (a b : Word) : Bool :=
  (decide (signedVal a < 0) != decide (signedVal b < 0))
    && (decide (signedVal (wrap ((a.toNat : Int) - b.toNat)) < 0) != decide (signedVal a < 0))

/-! ### What an instruction reads and writes: the table of R23 -/

/-- The registers an instruction reads. -/
def regReads : Instr → List RegNum
  | .add _ rs1 rs2 => [rs1, rs2]
  | .addi _ rs1 _ => [rs1]
  | .and _ rs1 rs2 => [rs1, rs2]
  | .andi _ rs1 _ => [rs1]
  | .beqz rs1 _ _ => [rs1]
  | .bnez rs1 _ _ => [rs1]
  | .j _ => []
  | .jal _ => []
  | .lw _ rs1 _ => [rs1]
  | .nop => []
  | .or _ rs1 rs2 => [rs1, rs2]
  | .ori _ rs1 _ => [rs1]
  | .sge _ rs1 rs2 => [rs1, rs2]
  | .sgei _ rs1 _ => [rs1]
  | .sle _ rs1 rs2 => [rs1, rs2]
  | .slei _ rs1 _ => [rs1]
  | .sll _ rs1 rs2 => [rs1, rs2]
  | .slli _ rs1 _ => [rs1]
  | .sne _ rs1 rs2 => [rs1, rs2]
  | .snei _ rs1 _ => [rs1]
  | .srl _ rs1 rs2 => [rs1, rs2]
  | .srli _ rs1 _ => [rs1]
  | .sub _ rs1 rs2 => [rs1, rs2]
  | .subi _ rs1 _ => [rs1]
  | .sw rs1 rs2 _ => [rs1, rs2]
  | .xor _ rs1 rs2 => [rs1, rs2]
  | .xori _ rs1 _ => [rs1]

/-- The register an instruction writes. -/
def regWrites : Instr → Option RegNum
  | .add rd _ _ => some rd
  | .addi rd _ _ => some rd
  | .and rd _ _ => some rd
  | .andi rd _ _ => some rd
  | .beqz _ _ _ => none
  | .bnez _ _ _ => none
  | .j _ => none
  | .jal _ => some 31
  | .lw rd _ _ => some rd
  | .nop => none
  | .or rd _ _ => some rd
  | .ori rd _ _ => some rd
  | .sge rd _ _ => some rd
  | .sgei rd _ _ => some rd
  | .sle rd _ _ => some rd
  | .slei rd _ _ => some rd
  | .sll rd _ _ => some rd
  | .slli rd _ _ => some rd
  | .sne rd _ _ => some rd
  | .snei rd _ _ => some rd
  | .srl rd _ _ => some rd
  | .srli rd _ _ => some rd
  | .sub rd _ _ => some rd
  | .subi rd _ _ => some rd
  | .sw _ _ _ => none
  | .xor rd _ _ => some rd
  | .xori rd _ _ => some rd

/-- `beqz bnez j jal`: the four that write `pc` otherwise than by `A + 4` (R24). -/
def transfersControl (i : Instr) : Bool := decide (i.mnemonic ∈ [.beqz, .bnez, .j, .jal])

/-! ### The invariant -/

/-- The text is a canonical byte map made of whole words (R30: a partial map from aligned addresses to words). -/
abbrev textWf (t : Memory) : Prop :=
  cellsRise t ∧ ∀ c ∈ t, ∀ k < 4, (cellAt t (c.1 / 4 * 4 + k)).isSome

/-- `END_PC mod 4 = 0` where it is given (R202). -/
def endPcAligned (p : Params) : Bool :=
  match p.endPc with
  | none => true
  | some a => aligned a

/-- What R32, R202 and R30 ask of the parameters. -/
abbrev paramsWf (p : Params) : Prop :=
  textWf p.text ∧ aligned p.resetPc = true ∧ endPcAligned p = true

/-- Every byte of the data memory that is listed lies in a word with memory behind it (R30, R42). -/
abbrev memBacked (p : Params) (m : Memory) : Prop :=
  ∀ c ∈ m, mappedAt p (BitVec.ofNat 32 (c.1 / 4 * 4)) = true

/-- A run that is over stands at `END_PC` (R202), and a recorded fault is the one the step at that state raises (R182). -/
def statusOk (s : State) : Prop :=
  match s.status with
  | .running => True
  | .ended => endAddr s.params = some s.pc
  | .faulted r => step { s with status := .running } = .fault r

/-- The invariant every step keeps. -/
structure Inv (s : State) : Prop where
  params : paramsWf s.params
  mem : s.mem.wf
  backed : memBacked s.params s.mem
  status : statusOk s

/-! ### Runs (R202, R205) -/

/-- The transition of R205 over the whole tuple of R36: a raised fault is recorded in the status, and a stopped machine
stays as it is. -/
def advance (s : State) : State :=
  match step s with
  | .next t => t
  | .fault r => s.raised r
  | .refused _ => s

/-- `t` comes after some number of steps from `s`. -/
inductive Reaches : State → State → Prop
  | here (s : State) : Reaches s s
  | step {s t u : State} : Reaches s t → Sys2Proof.Machine.step t = .next u → Reaches s u

/-! ### When two states look alike -/

/-- The same machine seen word by word: registers, `pc`, status, and the maps from aligned addresses to words that R30 calls
`Text` and `mem`; the byte order and the bytes themselves may differ (R43). -/
structure SameWords (s t : State) : Prop where
  x : s.x = t.x
  pc : s.pc = t.pc
  status : s.status = t.status
  mapped : s.params.mapped = t.params.mapped
  textGuard : s.params.textGuard = t.params.textGuard
  resetPc : s.params.resetPc = t.params.resetPc
  endAddr : endAddr s.params = endAddr t.params
  text : ∀ a : Word, aligned a = true → textAt s.params a = textAt t.params a
  mem : ∀ a : Word, aligned a = true →
    s.mem.readWord s.params.byteOrder a.toNat = t.mem.readWord t.params.byteOrder a.toNat

/-- The same state but for the data memory under the program text (R41). -/
structure SameOutsideText (s t : State) : Prop where
  x : s.x = t.x
  pc : s.pc = t.pc
  status : s.status = t.status
  params : s.params = t.params
  mem : ∀ a : Word, aligned a = true → inText s.params a = false →
    s.mem.readWord s.params.byteOrder a.toNat = t.mem.readWord t.params.byteOrder a.toNat

/-- Two outcomes of the same kind: related next states, or the same fault or refusal. -/
def sameOutcome (R : State → State → Prop) :
    Host.Outcome State Fault Refusal → Host.Outcome State Fault Refusal → Prop
  | .next s, .next t => R s t
  | .fault r, .fault q => r = q
  | .refused r, .refused q => r = q
  | _, _ => False

/-! ### Effects -/

/-- Every register reads as before. -/
def KeepsRegs (s t : State) : Prop := ∀ q : RegNum, t.reg q = s.reg q

/-- Every byte of data memory reads as before. -/
def KeepsMem (s t : State) : Prop := ∀ a : Nat, t.mem.readByte a = s.mem.readByte a

/-- The parameters and the run status are as before. -/
def KeepsRun (s t : State) : Prop := t.params = s.params ∧ t.status = s.status

/-- `pc <- A + 4`, modulo `2^32` (R25). -/
def Advances (s t : State) : Prop := t.pc.toNat = (s.pc.toNat + 4) % 2 ^ 32

/-- Register `rd` is the only one written, with a value that meets `P`; for `rd = 0` the write is discarded (R21). -/
def WritesReg (s t : State) (rd : RegNum) (P : Word → Prop) : Prop :=
  (rd ≠ 0 → P (t.reg rd)) ∧ (rd = 0 → t.reg rd = 0) ∧ ∀ q : RegNum, q ≠ rd → t.reg q = s.reg q

/-- The instruction completes: it writes `rd` alone, with a value that meets `P`, and goes to the next instruction (R110,
R130). -/
def CompletesWriting (s : State) (o : Host.Outcome State Fault Refusal) (rd : RegNum) (P : Word → Prop) : Prop :=
  ∃ t, o = .next t ∧ WritesReg s t rd P ∧ Advances s t ∧ KeepsMem s t ∧ KeepsRun s t

/-- The instruction completes and changes nothing but `pc`, which becomes `npc` modulo `2^32`. -/
def CompletesAt (s : State) (o : Host.Outcome State Fault Refusal) (npc : Int) : Prop :=
  ∃ t, o = .next t ∧ (t.pc.toNat : Int) = npc % 2 ^ 32 ∧ KeepsRegs s t ∧ KeepsMem s t ∧ KeepsRun s t

/-- `w` is the R-type word with this `func` and these registers, by the mask and match of R78 and the fields of R72. -/
def RTypeWord (w bits : Word) (rd rs1 rs2 : RegNum) : Prop :=
  w &&& 0xFC0007FF#32 = bits ∧ slice w 25 21 = rs1.val ∧ slice w 20 16 = rs2.val ∧ slice w 15 11 = rd.val

/-- `w` is the I-type word with this `op` and these fields, by the mask and match of R78 and the fields of R71. -/
def ITypeWord (w bits : Word) (rs1 r2 : Nat) (imm : BitVec 16) : Prop :=
  w &&& 0xFC000000#32 = bits ∧ slice w 25 21 = rs1 ∧ slice w 20 16 = r2 ∧ slice w 15 0 = imm.toNat

/-- `w` is the J-type word with this `op` and offset (R73, R78). -/
def JTypeWord (w bits : Word) (off : BitVec 26) : Prop :=
  w &&& 0xFC000000#32 = bits ∧ slice w 25 0 = off.toNat

end Sys2Proof.Machine
end

