-- ==== Sys2Proof/Certificates/Slice0/Obligations.lean ====
section
/-! DEFINITION. Certificates/Slice0/Obligations.lean: the statements for the provers, from the spec's numbered rules. The terms they
are made in stand in Safety.lean. "D<n>" is a decision of `92_eei_decisions.md`, "log <n>" a file of notes/assumptions. -/

open Sys2Proof Sys2Proof.Machine

/-! ### Encoding and decoding (`30_encoding.md`) -/

/-- Decoding the word of an instruction gives the instruction back, for every operand value. The ignored fields of R78 (c), (d) come back too because `Instr` keeps them (log 9, DESIGN CHOICE). -/
def Obligations.DecodeOfEncodeIsIdentity : Prop :=
  ∀ i : Instr, decode (encode i) = .ok i

/-- No bit of a word is lost: a word that decodes is the word of what it decodes to. For the bits R78 (c), (d) calls ignored this is the model's choice: `Instr` keeps them (log 9, DESIGN CHOICE). -/
def Obligations.EncodeOfDecodeIsIdentity : Prop :=
  ∀ (w : Word) (i : Instr), decode w = .ok i → encode i = w

/-- R78: a word is instruction `I` iff `w & mask_I = match_I`; a word that matches no row is reserved (R79). The strictness choices are the spec's decision D16. -/
def Obligations.DecodeMatchesOpcodeRows : Prop :=
  (∀ (w : Word), ∀ row ∈ opcodeRows,
    (w &&& row.mask = row.bits ↔ ∃ i, decode w = .ok i ∧ i.mnemonic = row.mnemonic)) ∧
  (∀ w : Word, (∀ row ∈ opcodeRows, w &&& row.mask ≠ row.bits) ↔ ∃ e, decode w = .error e)

/-- Words of each format and family that the spec writes out: eight of the source's own table (`95_test_vectors.md` section 1.1), and two words the spec derives, of the source's line `sw 21(r13),r6` (sections 1.2, 2.3) and of `jal` (section 2.4). -/
def Obligations.ExampleWordsDecode : Prop :=
  decode 0x028A4820#32 = .ok (.add 9 20 10) ∧ decode 0x2041FFFB#32 = .ok (.addi 1 2 0xFFFB#16) ∧
  decode 0x1000FFEE#32 = .ok (.beqz 0 0#5 0xFFEE#16) ∧ decode 0x0BFFFF3C#32 = .ok (.j 0x3FFFF3C#26) ∧
  decode 0x0C000008#32 = .ok (.jal 8#26) ∧ decode 0x8D13003F#32 = .ok (.lw 19 8 0x003F#16) ∧
  decode 0x54000000#32 = .ok .nop ∧ decode 0x50240005#32 = .ok (.slli 4 1 5#16) ∧
  decode 0xADA60015#32 = .ok (.sw 13 6 0x0015#16) ∧ decode 0x018F3026#32 = .ok (.xor 6 12 15)

/-! ### Register-register ALU instructions (`41_alu_rtype.md`) -/

/-- R100, `add`: its encoding, its effect with everything it leaves unchanged, and the source's example word. Register 0 discards the result (D2, log 11); the silent wrap is the spec's decision D11, log 13. -/
def Obligations.AddWritesItsResult : Prop :=
  (∀ w rd rs1 rs2, decode w = .ok (.add rd rs1 rs2) ↔ RTypeWord w 0x00000020#32 rd rs1 rs2) ∧
  (∀ rd rs1 rs2 s, CompletesWriting s (exec (.add rd rs1 rs2) s) rd fun v =>
    v.toNat = ((s.reg rs1).toNat + (s.reg rs2).toNat) % 2 ^ 32) ∧
  decode 0x028A4820#32 = .ok (.add 9 20 10)

/-- R101, `and`: its encoding, its effect with everything it leaves unchanged, and the source's example word. Register 0 discards the result (D2, log 11). -/
def Obligations.AndWritesItsResult : Prop :=
  (∀ w rd rs1 rs2, decode w = .ok (.and rd rs1 rs2) ↔ RTypeWord w 0x00000024#32 rd rs1 rs2) ∧
  (∀ rd rs1 rs2 s, CompletesWriting s (exec (.and rd rs1 rs2) s) rd fun v =>
    ∀ k < 32, v.getLsbD k = ((s.reg rs1).getLsbD k && (s.reg rs2).getLsbD k)) ∧
  decode 0x006A4824#32 = .ok (.and 9 3 10)

/-- R102, `or`: its encoding, its effect with everything it leaves unchanged, and the source's example word. Register 0 discards the result (D2, log 11). -/
def Obligations.OrWritesItsResult : Prop :=
  (∀ w rd rs1 rs2, decode w = .ok (.or rd rs1 rs2) ↔ RTypeWord w 0x00000025#32 rd rs1 rs2) ∧
  (∀ rd rs1 rs2 s, CompletesWriting s (exec (.or rd rs1 rs2) s) rd fun v =>
    ∀ k < 32, v.getLsbD k = ((s.reg rs1).getLsbD k || (s.reg rs2).getLsbD k)) ∧
  decode 0x00642825#32 = .ok (.or 5 3 4)

/-- R103, `sge`: its encoding, its effect with everything it leaves unchanged, and the source's example word. Register 0 discards the result (D2, log 11); two's complement is general knowledge, G5, log 12. -/
def Obligations.SgeWritesItsResult : Prop :=
  (∀ w rd rs1 rs2, decode w = .ok (.sge rd rs1 rs2) ↔ RTypeWord w 0x0000002D#32 rd rs1 rs2) ∧
  (∀ rd rs1 rs2 s, CompletesWriting s (exec (.sge rd rs1 rs2) s) rd fun v =>
    v = if signedVal (s.reg rs1) ≥ signedVal (s.reg rs2) then 1#32 else 0#32) ∧
  decode 0x004A082D#32 = .ok (.sge 1 2 10)

/-- R104, `sle`: its encoding, its effect with everything it leaves unchanged, and the source's example word. Register 0 discards the result (D2, log 11); two's complement is general knowledge, G5, log 12. -/
def Obligations.SleWritesItsResult : Prop :=
  (∀ w rd rs1 rs2, decode w = .ok (.sle rd rs1 rs2) ↔ RTypeWord w 0x0000002C#32 rd rs1 rs2) ∧
  (∀ rd rs1 rs2 s, CompletesWriting s (exec (.sle rd rs1 rs2) s) rd fun v =>
    v = if signedVal (s.reg rs1) ≤ signedVal (s.reg rs2) then 1#32 else 0#32) ∧
  decode 0x0044682C#32 = .ok (.sle 13 2 4)

/-- R105, `sll`: its encoding, its effect with everything it leaves unchanged, and the source's example word. Register 0 discards the result (D2, log 11). -/
def Obligations.SllWritesItsResult : Prop :=
  (∀ w rd rs1 rs2, decode w = .ok (.sll rd rs1 rs2) ↔ RTypeWord w 0x00000004#32 rd rs1 rs2) ∧
  (∀ rd rs1 rs2 s, CompletesWriting s (exec (.sll rd rs1 rs2) s) rd fun v =>
    v.toNat = (s.reg rs1).toNat * 2 ^ slice (s.reg rs2) 4 0 % 2 ^ 32) ∧
  decode 0x00430804#32 = .ok (.sll 1 2 3)

/-- R106, `sne`: its encoding, its effect with everything it leaves unchanged, and the source's example word. Register 0 discards the result (D2, log 11). -/
def Obligations.SneWritesItsResult : Prop :=
  (∀ w rd rs1 rs2, decode w = .ok (.sne rd rs1 rs2) ↔ RTypeWord w 0x00000029#32 rd rs1 rs2) ∧
  (∀ rd rs1 rs2 s, CompletesWriting s (exec (.sne rd rs1 rs2) s) rd fun v =>
    v = if s.reg rs1 ≠ s.reg rs2 then 1#32 else 0#32) ∧
  decode 0x00430829#32 = .ok (.sne 1 2 3)

/-- R107, `srl`: its encoding, its effect with everything it leaves unchanged, and the source's example word. Register 0 discards the result (D2, log 11). -/
def Obligations.SrlWritesItsResult : Prop :=
  (∀ w rd rs1 rs2, decode w = .ok (.srl rd rs1 rs2) ↔ RTypeWord w 0x00000006#32 rd rs1 rs2) ∧
  (∀ rd rs1 rs2 s, CompletesWriting s (exec (.srl rd rs1 rs2) s) rd fun v =>
    v.toNat = (s.reg rs1).toNat / 2 ^ slice (s.reg rs2) 4 0) ∧
  decode 0x00E82806#32 = .ok (.srl 5 7 8)

/-- R108, `sub`: its encoding, its effect with everything it leaves unchanged, and the source's example word. Register 0 discards the result (D2, log 11); the silent wrap is the spec's decision D11, log 13. -/
def Obligations.SubWritesItsResult : Prop :=
  (∀ w rd rs1 rs2, decode w = .ok (.sub rd rs1 rs2) ↔ RTypeWord w 0x00000022#32 rd rs1 rs2) ∧
  (∀ rd rs1 rs2 s, CompletesWriting s (exec (.sub rd rs1 rs2) s) rd fun v =>
    v.toNat = ((s.reg rs1).toNat + (2 ^ 32 - (s.reg rs2).toNat)) % 2 ^ 32) ∧
  decode 0x018F3022#32 = .ok (.sub 6 12 15)

/-- R109, `xor`: its encoding, its effect with everything it leaves unchanged, and the source's example word. Register 0 discards the result (D2, log 11). -/
def Obligations.XorWritesItsResult : Prop :=
  (∀ w rd rs1 rs2, decode w = .ok (.xor rd rs1 rs2) ↔ RTypeWord w 0x00000026#32 rd rs1 rs2) ∧
  (∀ rd rs1 rs2 s, CompletesWriting s (exec (.xor rd rs1 rs2) s) rd fun v =>
    ∀ k < 32, v.getLsbD k = ((s.reg rs1).getLsbD k != (s.reg rs2).getLsbD k)) ∧
  decode 0x018F3026#32 = .ok (.xor 6 12 15)

/-! ### Register-immediate ALU instructions (`42_alu_itype.md`) -/

/-- R120, `addi`: its encoding, its effect with everything it leaves unchanged, and the source's example word. Register 0 discards the result (D2, log 11); the silent wrap is the spec's decision D11, log 13. -/
def Obligations.AddiWritesItsResult : Prop :=
  (∀ w rd rs1 imm, decode w = .ok (.addi rd rs1 imm) ↔ ITypeWord w 0x20000000#32 rs1.val rd.val imm) ∧
  (∀ rd rs1 imm s, CompletesWriting s (exec (.addi rd rs1 imm) s) rd fun v =>
    (v.toNat : Int) = ((s.reg rs1).toNat + fieldVal imm) % 2 ^ 32) ∧
  decode 0x2041FFFB#32 = .ok (.addi 1 2 0xFFFB#16)

/-- R121, `andi`: its encoding, its effect with everything it leaves unchanged, and the source's example word. Register 0 discards the result (D2, log 11). -/
def Obligations.AndiWritesItsResult : Prop :=
  (∀ w rd rs1 imm, decode w = .ok (.andi rd rs1 imm) ↔ ITypeWord w 0x30000000#32 rs1.val rd.val imm) ∧
  (∀ rd rs1 imm s, CompletesWriting s (exec (.andi rd rs1 imm) s) rd fun v =>
    ∀ k < 32, v.getLsbD k = ((s.reg rs1).getLsbD k && (decide (k < 16) && imm.getLsbD k))) ∧
  decode 0x31340008#32 = .ok (.andi 20 9 8#16)

/-- R122, `ori`: its encoding, its effect with everything it leaves unchanged, and the source's example word. Register 0 discards the result (D2, log 11). -/
def Obligations.OriWritesItsResult : Prop :=
  (∀ w rd rs1 imm, decode w = .ok (.ori rd rs1 imm) ↔ ITypeWord w 0x34000000#32 rs1.val rd.val imm) ∧
  (∀ rd rs1 imm s, CompletesWriting s (exec (.ori rd rs1 imm) s) rd fun v =>
    ∀ k < 32, v.getLsbD k = ((s.reg rs1).getLsbD k || (decide (k < 16) && imm.getLsbD k))) ∧
  decode 0x34650156#32 = .ok (.ori 5 3 0x0156#16)

/-- R123, `sgei`: its encoding, its effect with everything it leaves unchanged, and the source's example word. Register 0 discards the result (D2, log 11); two's complement is general knowledge, G5, log 12. -/
def Obligations.SgeiWritesItsResult : Prop :=
  (∀ w rd rs1 imm, decode w = .ok (.sgei rd rs1 imm) ↔ ITypeWord w 0x74000000#32 rs1.val rd.val imm) ∧
  (∀ rd rs1 imm s, CompletesWriting s (exec (.sgei rd rs1 imm) s) rd fun v =>
    v = if signedVal (s.reg rs1) ≥ fieldVal imm then 1#32 else 0#32) ∧
  decode 0x76890006#32 = .ok (.sgei 9 20 6#16)

/-- R124, `slei`: its encoding, its effect with everything it leaves unchanged, and the source's example word. Register 0 discards the result (D2, log 11); two's complement is general knowledge, G5, log 12. -/
def Obligations.SleiWritesItsResult : Prop :=
  (∀ w rd rs1 imm, decode w = .ok (.slei rd rs1 imm) ↔ ITypeWord w 0x70000000#32 rs1.val rd.val imm) ∧
  (∀ rd rs1 imm s, CompletesWriting s (exec (.slei rd rs1 imm) s) rd fun v =>
    v = if signedVal (s.reg rs1) ≤ fieldVal imm then 1#32 else 0#32) ∧
  decode 0x7061FFFC#32 = .ok (.slei 1 3 0xFFFC#16)

/-- R125, `slli`: its encoding, its effect with everything it leaves unchanged, and the source's example word. Register 0 discards the result (D2, log 11). The source has no semantic entry for `slli`: the meaning is the spec's decision D15, log 15. -/
def Obligations.SlliWritesItsResult : Prop :=
  (∀ w rd rs1 imm, decode w = .ok (.slli rd rs1 imm) ↔ ITypeWord w 0x50000000#32 rs1.val rd.val imm) ∧
  (∀ rd rs1 imm s, CompletesWriting s (exec (.slli rd rs1 imm) s) rd fun v =>
    v.toNat = (s.reg rs1).toNat * 2 ^ (imm.toNat % 32) % 2 ^ 32) ∧
  decode 0x50240005#32 = .ok (.slli 4 1 5#16)

/-- R126, `snei`: its encoding, its effect with everything it leaves unchanged, and the source's example word. Register 0 discards the result (D2, log 11). -/
def Obligations.SneiWritesItsResult : Prop :=
  (∀ w rd rs1 imm, decode w = .ok (.snei rd rs1 imm) ↔ ITypeWord w 0x64000000#32 rs1.val rd.val imm) ∧
  (∀ rd rs1 imm s, CompletesWriting s (exec (.snei rd rs1 imm) s) rd fun v =>
    v = if s.reg rs1 ≠ wrap (fieldVal imm) then 1#32 else 0#32) ∧
  decode 0x64A30004#32 = .ok (.snei 3 5 4#16)

/-- R127, `srli`: its encoding, its effect with everything it leaves unchanged, and the source's example word. Register 0 discards the result (D2, log 11). -/
def Obligations.SrliWritesItsResult : Prop :=
  (∀ w rd rs1 imm, decode w = .ok (.srli rd rs1 imm) ↔ ITypeWord w 0x58000000#32 rs1.val rd.val imm) ∧
  (∀ rd rs1 imm s, CompletesWriting s (exec (.srli rd rs1 imm) s) rd fun v =>
    v.toNat = (s.reg rs1).toNat / 2 ^ (imm.toNat % 32)) ∧
  decode 0x58A70002#32 = .ok (.srli 7 5 2#16)

/-- R128, `subi`: its encoding, its effect with everything it leaves unchanged, and the source's example word. Register 0 discards the result (D2, log 11); the silent wrap is the spec's decision D11, log 13. -/
def Obligations.SubiWritesItsResult : Prop :=
  (∀ w rd rs1 imm, decode w = .ok (.subi rd rs1 imm) ↔ ITypeWord w 0x28000000#32 rs1.val rd.val imm) ∧
  (∀ rd rs1 imm s, CompletesWriting s (exec (.subi rd rs1 imm) s) rd fun v =>
    (v.toNat : Int) = ((s.reg rs1).toNat - fieldVal imm) % 2 ^ 32) ∧
  decode 0x2927FFE2#32 = .ok (.subi 7 9 0xFFE2#16)

/-- R129, `xori`: its encoding, its effect with everything it leaves unchanged, and the source's example word. Register 0 discards the result (D2, log 11). -/
def Obligations.XoriWritesItsResult : Prop :=
  (∀ w rd rs1 imm, decode w = .ok (.xori rd rs1 imm) ↔ ITypeWord w 0x38000000#32 rs1.val rd.val imm) ∧
  (∀ rd rs1 imm s, CompletesWriting s (exec (.xori rd rs1 imm) s) rd fun v =>
    ∀ k < 32, v.getLsbD k = ((s.reg rs1).getLsbD k != (decide (k < 16) && imm.getLsbD k))) ∧
  decode 0x39860001#32 = .ok (.xori 6 12 1#16)

/-! ### Loads and stores (`43_load_store.md`, `20_memory.md`) -/

/-- R141, `lw`: encoding, completion with its frame, the three faults in their order, the source's example word. The wrap of the address is the spec's decision D26, the faults D7, D9, D10 (logs 13, 20). -/
def Obligations.LwLoadsTheAddressedWord : Prop :=
  (∀ w rd rs1 disp, decode w = .ok (.lw rd rs1 disp) ↔ ITypeWord w 0x8C000000#32 rs1.val rd.val disp) ∧
  (∀ rd rs1 disp s ea, ea = wrap ((s.reg rs1).toNat + fieldVal disp) →
    (ea.toNat % 4 ≠ 0 → exec (.lw rd rs1 disp) s = .fault (.misalignedAccess ea)) ∧
    (ea.toNat % 4 = 0 → s.params.textGuard = true → inText s.params ea = true →
      exec (.lw rd rs1 disp) s = .fault (.textAccess ea)) ∧
    (ea.toNat % 4 = 0 → ¬ (s.params.textGuard = true ∧ inText s.params ea = true) → mappedAt s.params ea = false →
      exec (.lw rd rs1 disp) s = .fault (.unmappedAccess ea)) ∧
    (ea.toNat % 4 = 0 → ¬ (s.params.textGuard = true ∧ inText s.params ea = true) → mappedAt s.params ea = true →
      CompletesWriting s (exec (.lw rd rs1 disp) s) rd fun v =>
        v = s.mem.readWord s.params.byteOrder ea.toNat)) ∧
  decode 0x8D13003F#32 = .ok (.lw 19 8 0x003F#16)

/-- R142, `sw`: encoding, completion with its frame byte by byte, the three faults in their order, the source's example word. The wrap of the address is the spec's decision D26, the faults D7, D9, D10 (logs 13, 20). -/
def Obligations.SwStoresTheAddressedWord : Prop :=
  (∀ w rs1 rs2 disp, decode w = .ok (.sw rs1 rs2 disp) ↔ ITypeWord w 0xAC000000#32 rs1.val rs2.val disp) ∧
  (∀ rs1 rs2 disp s ea, effAddr s rs1 disp = ea →
    ea = wrap ((s.reg rs1).toNat + fieldVal disp) ∧
    (ea.toNat % 4 ≠ 0 → exec (.sw rs1 rs2 disp) s = .fault (.misalignedAccess ea)) ∧
    (ea.toNat % 4 = 0 → s.params.textGuard = true → inText s.params ea = true →
      exec (.sw rs1 rs2 disp) s = .fault (.textAccess ea)) ∧
    (ea.toNat % 4 = 0 → ¬ (s.params.textGuard = true ∧ inText s.params ea = true) → mappedAt s.params ea = false →
      exec (.sw rs1 rs2 disp) s = .fault (.unmappedAccess ea)) ∧
    (ea.toNat % 4 = 0 → ¬ (s.params.textGuard = true ∧ inText s.params ea = true) → mappedAt s.params ea = true →
      ∃ t, exec (.sw rs1 rs2 disp) s = .next t ∧ KeepsRegs s t ∧ Advances s t ∧ KeepsRun s t ∧
        t.mem.readWord s.params.byteOrder ea.toNat = s.reg rs2 ∧
        ∀ a, a < ea.toNat ∨ ea.toNat + 3 < a → t.mem.readByte a = s.mem.readByte a)) ∧
  decode 0xAC010001#32 = .ok (.sw 0 1 1#16)

/-- R47: the three checks of `MemRead` in their order, else the word. -/
def Obligations.MemReadChecksThenReads : Prop :=
  ∀ (s : State) (a : Word),
    (a.toNat % 4 ≠ 0 → memRead s a = .error (.misalignedAccess a)) ∧
    (a.toNat % 4 = 0 → s.params.textGuard = true → (∃ w, textAt s.params a = some w) →
      memRead s a = .error (.textAccess a)) ∧
    (a.toNat % 4 = 0 → (s.params.textGuard = false ∨ textAt s.params a = none) →
      (∀ r ∈ s.params.mapped, ¬ (r.first ≤ a.toNat ∧ a.toNat ≤ r.last)) → memRead s a = .error (.unmappedAccess a)) ∧
    (a.toNat % 4 = 0 → (s.params.textGuard = false ∨ textAt s.params a = none) →
      (∃ r ∈ s.params.mapped, r.first ≤ a.toNat ∧ a.toNat ≤ r.last) →
      memRead s a = .ok (s.mem.readWord s.params.byteOrder a.toNat))

/-- R48: the same checks in the same order, else one word replaced and all other words unchanged, in every byte order. -/
def Obligations.MemWriteChecksThenWritesOneWord : Prop :=
  ∀ (s : State) (a v : Word),
    (∀ r, memWrite s a v = .error r ↔ memRead s a = .error r) ∧
    (∀ u, memRead s a = .ok u → ∃ t, memWrite s a v = .ok t ∧
      t.mem.readWord s.params.byteOrder a.toNat = v ∧
      (∀ b : Word, b.toNat % 4 = 0 → b ≠ a →
        t.mem.readWord s.params.byteOrder b.toNat = s.mem.readWord s.params.byteOrder b.toNat) ∧
      t.x = s.x ∧ t.pc = s.pc ∧ t.status = s.status ∧ t.params = s.params)

/-- R52, R57: a word stored is what the next load of that address returns, and a load of another address returns what it returned before. The sequential memory is the spec's decision D24. -/
def Obligations.StoreIsSeenByTheNextLoad : Prop :=
  ∀ (rs1 rs2 rd : RegNum) (disp : BitVec 16) (s t : State), exec (.sw rs1 rs2 disp) s = .next t →
    (CompletesWriting t (exec (.lw rd rs1 disp) t) rd fun v => v = s.reg rs2) ∧
    (∀ (a : Word) (v : Word), a ≠ effAddr s rs1 disp → (memRead t a = .ok v ↔ memRead s a = .ok v))

/-- R43: which byte of a stored word lies at which address, for both byte orders. The default is the spec's decision D6. -/
def Obligations.ByteOrderLaysOutAWord : Prop :=
  ∀ (m : Memory) (a : Nat) (v : Word),
    (let t := m.writeWord .big a v;
      (t.readByte a).toNat = slice v 31 24 ∧ (t.readByte (a + 1)).toNat = slice v 23 16 ∧
      (t.readByte (a + 2)).toNat = slice v 15 8 ∧ (t.readByte (a + 3)).toNat = slice v 7 0 ∧
      t.readWord .big a = v) ∧
    (let t := m.writeWord .little a v;
      (t.readByte a).toNat = slice v 7 0 ∧ (t.readByte (a + 1)).toNat = slice v 15 8 ∧
      (t.readByte (a + 2)).toNat = slice v 23 16 ∧ (t.readByte (a + 3)).toNat = slice v 31 24 ∧
      t.readWord .little a = v)

/-- The canonical form: two well-formed memories that read alike everywhere are the same list. A statement about the model's representation of R30's map (log 3). -/
def Obligations.EqualMemoriesAreEqualData : Prop :=
  ∀ m n : Memory, m.wf → n.wf → (∀ a, m.readByte a = n.readByte a) → m = n

/-! ### Control transfer and nop (`44_control.md`, `45_nop.md`) -/

/-- R151, `beqz`: encoding, both directions, frame, the source's example word. The base `A + 4` is the spec's decision D12 (log 14). -/
def Obligations.BeqzBranchesOnZero : Prop :=
  (∀ w rs1 u off, decode w = .ok (.beqz rs1 u off) ↔ ITypeWord w 0x10000000#32 rs1.val u.toNat off) ∧
  (∀ rs1 u off s, CompletesAt s (exec (.beqz rs1 u off) s)
    (if s.reg rs1 = 0#32 then s.pc.toNat + 4 + fieldVal off else s.pc.toNat + 4)) ∧
  decode 0x1000FFEE#32 = .ok (.beqz 0 0#5 0xFFEE#16) ∧ fieldVal 0xFFEE#16 = -18

/-- R152, `bnez`: encoding, both directions, frame, the source's example word. The base `A + 4` is the spec's decision D12 (log 14). -/
def Obligations.BnezBranchesOnNonzero : Prop :=
  (∀ w rs1 u off, decode w = .ok (.bnez rs1 u off) ↔ ITypeWord w 0x14000000#32 rs1.val u.toNat off) ∧
  (∀ rs1 u off s, CompletesAt s (exec (.bnez rs1 u off) s)
    (if s.reg rs1 ≠ 0#32 then s.pc.toNat + 4 + fieldVal off else s.pc.toNat + 4)) ∧
  decode 0x1440FFE2#32 = .ok (.bnez 2 0#5 0xFFE2#16) ∧ fieldVal 0xFFE2#16 = -30

/-- R153, `j`: encoding, target, frame, the source's example word. -/
def Obligations.JumpGoesToItsTarget : Prop :=
  (∀ w off, decode w = .ok (.j off) ↔ JTypeWord w 0x08000000#32 off) ∧
  (∀ off s, CompletesAt s (exec (.j off) s) (s.pc.toNat + 4 + fieldVal off)) ∧
  decode 0x0BFFFF3C#32 = .ok (.j 0x3FFFF3C#26) ∧ fieldVal 0x3FFFF3C#26 = -196

/-- R154, `jal`: the link is `A + 4`, the target `A + 4 + off`; the reading is the spec's decision D13 (C7, log 14). -/
def Obligations.JalLinksAndJumps : Prop :=
  (∀ w off, decode w = .ok (.jal off) ↔ JTypeWord w 0x0C000000#32 off) ∧
  (∀ off s, ∃ t, exec (.jal off) s = .next t ∧
    WritesReg s t 31 (fun v => v.toNat = (s.pc.toNat + 4) % 2 ^ 32) ∧
    (t.pc.toNat : Int) = (s.pc.toNat + 4 + fieldVal off) % 2 ^ 32 ∧ KeepsMem s t ∧ KeepsRun s t) ∧
  decode 0x0C000008#32 = .ok (.jal 8#26)

/-- R170, `nop`: the exact word and its effect; the strictness on the tail is the spec's decision D16. -/
def Obligations.NopOnlyAdvances : Prop :=
  (∀ w, decode w = .ok .nop ↔ w = 0x54000000#32) ∧
  (∀ w, slice w 31 26 = 0x15 → slice w 25 0 ≠ 0 → ∃ e, decode w = .error e) ∧
  (∀ s, CompletesAt s (exec .nop s) (s.pc.toNat + 4))

/-- R156: a transfer to a bad target completes, and the next step faults there, unless the target is `END_PC`. The spec's decision D8. -/
def Obligations.BadTargetFaultsAtTheNextStep : Prop :=
  ∀ (i : Instr) (s : State), transfersControl i = true → s.status = .running → paramsWf s.params →
    ∃ t, exec i s = .next t ∧
      (t.pc.toNat % 4 ≠ 0 → step t = .fault (.misalignedFetch t.pc)) ∧
      (t.pc.toNat % 4 = 0 → textAt t.params t.pc = none → endAddr t.params ≠ some t.pc →
        step t = .fault (.unmappedFetch t.pc)) ∧
      (endAddr t.params = some t.pc → step t = .next (t.ended))

/-! ### Registers and effects, over all instructions (`10_state.md`) -/

/-- R21: `x[0]` reads as zero in every state and a write to it has no effect. General knowledge and the spec's decision D2 (log 11). -/
def Obligations.RegisterZeroIsHardWired : Prop :=
  (∀ s : State, s.reg 0 = 0#32) ∧ (∀ (s : State) (v : Word), s.setReg 0 v = s) ∧
  (∀ (s : State) (r q : RegNum) (v : Word), r ≠ 0 → (s.setReg r v).reg q = if q = r then v else s.reg q)

/-- The table of R23 as a bound: no register it does not list as written is changed, and two states alike but for registers it does not list as read have alike outcomes. That listed registers are read, and read before the write, is in the result statements of each instruction. -/
def Obligations.NoRegisterOutsideTheTable : Prop :=
  (∀ (i : Instr) (s t : State), exec i s = .next t → ∀ q, regWrites i ≠ some q → t.reg q = s.reg q) ∧
  (∀ (i : Instr) (s u : State), u.pc = s.pc → u.mem = s.mem → u.params = s.params → u.status = s.status →
    (∀ q ∈ regReads i, u.reg q = s.reg q) →
    sameOutcome (fun t v => t.pc = v.pc ∧ t.mem = v.mem ∧ ∀ q, regWrites i = some q → t.reg q = v.reg q)
      (exec i s) (exec i u))

/-- R24, R25: of the 27, only `beqz bnez j jal` write `pc` otherwise than by `A + 4`. The wrap is the spec's decision D4. -/
def Obligations.OnlyTransfersRedirectThePc : Prop :=
  ∀ (i : Instr) (s t : State), exec i s = .next t → transfersControl i = false → Advances s t

/-- R30: the data memory is written only by `sw`, the text and the other parameters by nothing. -/
def Obligations.OnlyStoreWritesMemory : Prop :=
  (∀ (i : Instr) (s t : State), exec i s = .next t → i.mnemonic ≠ .sw → t.mem = s.mem) ∧
  (∀ s t : State, step s = .next t → t.params = s.params)

/-- R111: `add` and `sub` write the signed sum or difference modulo `2^32` whether or not it overflows, and it is exact iff there is no signed overflow. The silent wrap is the spec's decision D11 (log 13), the discarded write to register 0 its D2 (log 11). -/
def Obligations.SignedOverflowOnlyWraps : Prop :=
  ∀ (rd rs1 rs2 : RegNum) (s : State),
    (∃ t, exec (.add rd rs1 rs2) s = .next t ∧ (rd = 0 → t.reg rd = 0#32) ∧
      (rd ≠ 0 → t.reg rd = wrap (signedVal (s.reg rs1) + signedVal (s.reg rs2)) ∧
        (addOverflows (s.reg rs1) (s.reg rs2) = false ↔
          signedVal (t.reg rd) = signedVal (s.reg rs1) + signedVal (s.reg rs2)))) ∧
    (∃ t, exec (.sub rd rs1 rs2) s = .next t ∧ (rd = 0 → t.reg rd = 0#32) ∧
      (rd ≠ 0 → t.reg rd = wrap (signedVal (s.reg rs1) - signedVal (s.reg rs2)) ∧
        (subOverflows (s.reg rs1) (s.reg rs2) = false ↔
          signedVal (t.reg rd) = signedVal (s.reg rs1) - signedVal (s.reg rs2))))

/-! ### The step, faults and the end of a run (`60_exceptions.md`, `70_reset_and_hazards.md`) -/

/-- R49: the checks of `Fetch` in their order, else the word of the text; a word of the text is four bytes in the byte order of R43 (log 10). -/
def Obligations.FetchChecksThenReadsText : Prop :=
  ∀ (s : State) (a : Word),
    (a.toNat % 4 ≠ 0 → fetch s a = .error (.misalignedFetch a)) ∧
    (a.toNat % 4 = 0 → textAt s.params a = none → fetch s a = .error (.unmappedFetch a)) ∧
    (∀ w, a.toNat % 4 = 0 → textAt s.params a = some w → fetch s a = .ok w) ∧
    (s.status = .running → endAddr s.params = some s.pc → step s = .next (s.ended))

/-- R205: when the bytes of the text at `pc` decode to an instruction, the step is that instruction's own rule. -/
def Obligations.StepRunsTheDecodedInstruction : Prop :=
  ∀ (s : State) (w : Word) (i : Instr), s.status = .running → endAddr s.params ≠ some s.pc → s.pc.toNat % 4 = 0 →
    textAt s.params s.pc = some w → decode w = .ok i → step s = exec i s

/-- R184, R205: the order of the checks of one step, and that they are all of it. The order is the spec's decision D30. -/
def Obligations.StepChecksInOrder : Prop :=
  ∀ s : State, s.status = .running →
    (endAddr s.params = some s.pc → step s = .next (s.ended)) ∧
    (endAddr s.params ≠ some s.pc →
      (s.pc.toNat % 4 ≠ 0 → step s = .fault (.misalignedFetch s.pc)) ∧
      (s.pc.toNat % 4 = 0 → textAt s.params s.pc = none → step s = .fault (.unmappedFetch s.pc)) ∧
      (∀ w, s.pc.toNat % 4 = 0 → textAt s.params s.pc = some w →
        ((∀ row ∈ opcodeRows, w &&& row.mask ≠ row.bits) → step s = .fault (.illegalInstruction w s.pc)) ∧
        (∀ row ∈ opcodeRows, w &&& row.mask = row.bits →
          ∃ i, decode w = .ok i ∧ i.mnemonic = row.mnemonic ∧ step s = exec i s)))

/-- R182: a fault leaves registers, `pc` and memory as they were, is recorded in the status, and is never left. The spec's decision D18. That `advance` records it is log 7 (DEDUCED); that a Faulted machine answers its fault again is the model's choice, log 6 (DESIGN CHOICE): R182 says only that it takes no further step. -/
def Obligations.FaultsArePreciseAndTerminal : Prop :=
  ∀ (s : State) (r : Fault), step s = .fault r →
    KeepsRegs s (advance s) ∧ (advance s).pc = s.pc ∧ (advance s).mem = s.mem ∧ (advance s).params = s.params ∧
    (advance s).status = .faulted r ∧ step (advance s) = .fault r ∧ advance (advance s) = advance s

/-- R194 and R110, R130: no instruction but `lw` and `sw` can fault, and those two fault only by a failed check of their one access. -/
def Obligations.InstructionsCompleteOrHaveNoEffect : Prop :=
  (∀ (i : Instr) (s : State), i.mnemonic ≠ .lw → i.mnemonic ≠ .sw → ∃ t, exec i s = .next t) ∧
  (∀ (i : Instr) (s : State), (∃ t, exec i s = .next t) ∨ ∃ r, exec i s = .fault r) ∧
  (∀ (i : Instr) (s : State) (r : Fault), exec i s = .fault r →
    ∃ ea, r = .misalignedAccess ea ∨ r = .textAccess ea ∨ r = .unmappedAccess ea)

/-- R202, R36: at `END_PC` a running machine ends with everything else as it is, and an ended machine has no step. The spec's decision D22 (log 6). -/
def Obligations.EndOfRunIsFinal : Prop :=
  (∀ s : State, s.status = .running → endAddr s.params = some s.pc →
    ∃ t, step s = .next t ∧ t.status = .ended ∧ KeepsRegs s t ∧ t.pc = s.pc ∧ t.mem = s.mem ∧ t.params = s.params) ∧
  (∀ s : State, s.status = .ended → step s = .refused .runEnded ∧ advance s = s) ∧
  (∀ (s : State) (r : Fault), s.status = .faulted r → step s = .fault r) ∧
  (∀ s t : State, step s = .next t → s.status = .running ∧
    (t.status = .running ∨ (t.status = .ended ∧ endAddr t.params = some t.pc)))

/-- R4, R202: the default of `END_PC` is the address just past the last word of a contiguous text. The model's choices (log 5, DESIGN CHOICE): an empty text has none, a text that ends at 0xFFFFFFFC has address 0, and a text with gaps the address past its greatest word. -/
def Obligations.OpenEndPcDefaultsPastTheText : Prop :=
  ∀ p : Params, paramsWf p →
    (∀ a, p.endPc = some a → endAddr p = some a) ∧
    (p.endPc = none → p.text = [] → endAddr p = none) ∧
    (p.endPc = none → ∀ a, inText p a = true → aligned a = true →
      (∀ b, inText p b = true → aligned b = true → b.toNat ≤ a.toNat) → endAddr p = some (a + 4#32)) ∧
    (∀ a, endAddr p = some a → a.toNat % 4 = 0)

/-! ### Reset and the invariant (`10_state.md` section 5) -/

/-- R32, R33, R36, R200: what every launch leaves, for any registers and memory, and the parameters `State.reset` takes. `RESET_PC`, the byte order and the guard are the spec's defaults (D21, D6, D9); the map is the model's choice (log 4). -/
def Obligations.ResetIsALaunchState : Prop :=
  (∀ (p : Params) (x : Vector Word 31) (m : Memory), (State.launch p x m).pc = p.resetPc ∧
    (State.launch p x m).reg 0 = 0#32 ∧ (State.launch p x m).x = x ∧ (State.launch p x m).mem = m ∧
    (State.launch p x m).params = p ∧ (State.launch p x m).status = .running) ∧
  (∃ x m, State.reset = State.launch Params.default x m) ∧
  State.reset.pc = 0x00000000#32 ∧ State.reset.params.byteOrder = .big ∧ State.reset.params.textGuard = true

/-- R200: the invariant holds right after reset. It rests on the model's reset choices: nothing listed in memory (log 3), the whole space mapped (log 4), no text placed (log 8), the spec's defaults for the other parameters (log 23). -/
def Obligations.ResetMeetsTheInvariant : Prop :=
  Inv State.reset

/-- R33, R34: whatever the registers and the memory hold at launch, the invariant holds if the host's parameters are well formed and its memory is in canonical form inside the map. The canonical forms of memory and text are the model's (logs 3, 10). -/
def Obligations.LaunchMeetsTheInvariant : Prop :=
  ∀ (p : Params) (x : Vector Word 31) (m : Memory), paramsWf p → m.wf → memBacked p m → Inv (State.launch p x m)

/-- R30, R36, R202: every step from every state that meets the invariant leaves a state that meets it: the text is a map from aligned addresses to words, the memory lies inside the map, an Ended run stands at `END_PC`. The canonical form of the memory (log 3), the text as the bytes of whole words (log 10), the fault recorded in the status (log 7, DEDUCED) and the stopped states having no next state (log 6) are the model's own. -/
def Obligations.StepKeepsTheInvariant : Prop :=
  ∀ s t : State, Inv s → step s = .next t → Inv t

/-- R36, R182: the transition over the whole tuple, recorded faults included, keeps the invariant, so it holds along every run. The model's own here: the canonical forms of memory and text (logs 3, 10), `advance` recording the fault (log 7, DEDUCED) and leaving a stopped machine as it is (log 6). -/
def Obligations.AdvanceKeepsTheInvariant : Prop :=
  (∀ s : State, Inv s → Inv (advance s)) ∧
  (∀ s t : State, Inv s → Reaches s t → Inv t)

/-- R43: states that agree word by word behave alike whatever their byte orders: the machine is the spec's own machine over maps of words (R30). The parameter is the spec's decision D6 (log 18). -/
def Obligations.ByteOrderIsUnobservable : Prop :=
  ∀ s t : State, SameWords s t → sameOutcome SameWords (step s) (step t)

/-- R41, D9: with the text guard on, what the data memory holds at addresses of the text is neither read nor written, so a machine with one memory and a machine with two behave alike. -/
def Obligations.GuardedTextIsNotData : Prop :=
  ∀ s t : State, s.params.textGuard = true → SameOutsideText s t → sameOutcome SameOutsideText (step s) (step t)

/-- The host's way of placing an instruction (log 8): from every state, the very next step executes it. -/
def Obligations.PlacedInstructionIsTheNextToRun : Prop :=
  ∀ (s : State) (nbits w : Nat) (i : Instr), decodeTableWord nbits w = some i →
    step (s.withFetchWord nbits w) = exec i (s.withFetchWord nbits w) ∧
    KeepsRegs s (s.withFetchWord nbits w) ∧ KeepsMem s (s.withFetchWord nbits w)

/-! ### Assembler (`30_encoding.md` section 5) -/

/-- R82, R83: an instruction with no ignored bit set has a line, and the line stands for it; every line that assembles stands for such an instruction. The ranges are those of R75 (log 19). -/
def Obligations.DisassemblyAssemblesBack : Prop :=
  (∀ (a : Word) (i : Instr), i.wellFormed = true → assemble a (disassemble a i) = some i) ∧
  (∀ (a : Word) (l : AsmLine) (i : Instr), assemble a l = some i → i.wellFormed = true ∧ i.mnemonic = l.mnemonic)

/-- R83: a label operand assembles to the offset that takes the transfer to the label. -/
def Obligations.LabelOperandReachesItsLabel : Prop :=
  (∀ (s t : State) (lab : Word) (i : Instr), assemble s.pc ⟨.j, [.label lab]⟩ = some i → exec i s = .next t →
    t.pc = lab) ∧
  (∀ (s t : State) (lab : Word) (i : Instr), assemble s.pc ⟨.jal, [.label lab]⟩ = some i → exec i s = .next t →
    t.pc = lab) ∧
  (∀ (s t : State) (r : RegNum) (lab : Word) (i : Instr), assemble s.pc ⟨.beqz, [.reg r, .label lab]⟩ = some i →
    s.reg r = 0#32 → exec i s = .next t → t.pc = lab) ∧
  (∀ (s t : State) (r : RegNum) (lab : Word) (i : Instr), assemble s.pc ⟨.bnez, [.reg r, .label lab]⟩ = some i →
    s.reg r ≠ 0#32 → exec i s = .next t → t.pc = lab)

/-- R84: the three idioms that follow from register 0. -/
def Obligations.IdiomsOfTheAssembler : Prop :=
  (∀ rd rs s, CompletesWriting s (exec (.add rd rs 0) s) rd fun v => v = s.reg rs) ∧
  (∀ rd imm s, CompletesWriting s (exec (.addi rd 0 imm) s) rd fun v => signedVal v = fieldVal imm) ∧
  (∀ rd imm s, CompletesWriting s (exec (.ori rd 0 imm) s) rd fun v => v.toNat = imm.toNat)
end

