-- ==== Sys2Proof/Laws/Encoding.lean ====
section
/-! SUPPORT. Laws/Encoding.lean: the fields of an encoded word, the word from its fields, and the masks of R78 as fields. -/

namespace Sys2Proof.Machine

/-- The bits of a field. -/
theorem extract_toNat (w : Word) (lo n : Nat) : (w.extractLsb' lo n).toNat = w.toNat / 2 ^ lo % 2 ^ n := by
  simp [BitVec.extractLsb'_toNat, Nat.shiftRight_eq_div_pow]

/-! ### Register fields -/

@[simp] theorem regOfBits_bitsOfReg (r : RegNum) : regOfBits (bitsOfReg r) = r := by
  apply Fin.ext
  have := r.isLt
  simp [regOfBits, bitsOfReg]

@[simp] theorem bitsOfReg_regOfBits (b : BitVec 5) : bitsOfReg (regOfBits b) = b := by
  apply BitVec.eq_of_toNat_eq
  simp [regOfBits, bitsOfReg]

@[simp] theorem regOfBits_val (b : BitVec 5) : (regOfBits b).val = b.toNat := rfl

theorem regOfBits_eq_iff (b : BitVec 5) (r : RegNum) : regOfBits b = r ↔ b.toNat = r.val :=
  ⟨fun h => h ▸ rfl, fun h => Fin.ext h⟩

/-! ### Slices (R5) are the fields -/

theorem slice_rs1 (w : Word) : slice w 25 21 = (rs1Bits w).toNat := (extract_toNat w 21 5).symm
theorem slice_r2 (w : Word) : slice w 20 16 = (r2Bits w).toNat := (extract_toNat w 16 5).symm
theorem slice_r3 (w : Word) : slice w 15 11 = (r3Bits w).toNat := (extract_toNat w 11 5).symm
theorem slice_imm16 (w : Word) : slice w 15 0 = (imm16Field w).toNat := (extract_toNat w 0 16).symm
theorem slice_imm26 (w : Word) : slice w 25 0 = (imm26Field w).toNat := (extract_toNat w 0 26).symm
theorem slice_op (w : Word) : slice w 31 26 = (opField w).toNat := (extract_toNat w 26 6).symm
theorem slice_func (w : Word) : slice w 10 0 = (funcField w).toNat := (extract_toNat w 0 11).symm

/-! ### The fields of a word put together from fields -/

section Fields
variable (op : BitVec 6) (a b : BitVec 5) (imm : BitVec 16) (off : BitVec 26) (func : BitVec 11) (rd rs1 rs2 : RegNum)

@[simp] theorem opField_encodeI : opField (encodeI op a b imm) = op := by
  apply BitVec.eq_of_getLsbD_eq; intro i hi
  simp only [opField, encodeI, BitVec.getLsbD_extractLsb', BitVec.getLsbD_append]
  interval_cases i <;> simp
@[simp] theorem rs1Bits_encodeI : rs1Bits (encodeI op a b imm) = a := by
  apply BitVec.eq_of_getLsbD_eq; intro i hi
  simp only [rs1Bits, encodeI, BitVec.getLsbD_extractLsb', BitVec.getLsbD_append]
  interval_cases i <;> simp
@[simp] theorem r2Bits_encodeI : r2Bits (encodeI op a b imm) = b := by
  apply BitVec.eq_of_getLsbD_eq; intro i hi
  simp only [r2Bits, encodeI, BitVec.getLsbD_extractLsb', BitVec.getLsbD_append]
  interval_cases i <;> simp
@[simp] theorem imm16Field_encodeI : imm16Field (encodeI op a b imm) = imm := by
  apply BitVec.eq_of_getLsbD_eq; intro i hi
  simp only [imm16Field, encodeI, BitVec.getLsbD_extractLsb', BitVec.getLsbD_append]
  interval_cases i <;> simp

@[simp] theorem opField_encodeR : opField (encodeR func rd rs1 rs2) = 0x00#6 := by
  apply BitVec.eq_of_getLsbD_eq; intro i hi
  simp only [opField, encodeR, BitVec.getLsbD_extractLsb', BitVec.getLsbD_append]
  interval_cases i <;> simp
@[simp] theorem rs1Bits_encodeR : rs1Bits (encodeR func rd rs1 rs2) = bitsOfReg rs1 := by
  apply BitVec.eq_of_getLsbD_eq; intro i hi
  simp only [rs1Bits, encodeR, BitVec.getLsbD_extractLsb', BitVec.getLsbD_append]
  interval_cases i <;> simp
@[simp] theorem r2Bits_encodeR : r2Bits (encodeR func rd rs1 rs2) = bitsOfReg rs2 := by
  apply BitVec.eq_of_getLsbD_eq; intro i hi
  simp only [r2Bits, encodeR, BitVec.getLsbD_extractLsb', BitVec.getLsbD_append]
  interval_cases i <;> simp
@[simp] theorem r3Bits_encodeR : r3Bits (encodeR func rd rs1 rs2) = bitsOfReg rd := by
  apply BitVec.eq_of_getLsbD_eq; intro i hi
  simp only [r3Bits, encodeR, BitVec.getLsbD_extractLsb', BitVec.getLsbD_append]
  interval_cases i <;> simp
@[simp] theorem funcField_encodeR : funcField (encodeR func rd rs1 rs2) = func := by
  apply BitVec.eq_of_getLsbD_eq; intro i hi
  simp only [funcField, encodeR, BitVec.getLsbD_extractLsb', BitVec.getLsbD_append]
  interval_cases i <;> simp

@[simp] theorem opField_encodeJ : opField (encodeJ op off) = op := by
  apply BitVec.eq_of_getLsbD_eq; intro i hi
  simp only [opField, encodeJ, BitVec.getLsbD_extractLsb', BitVec.getLsbD_append]
  interval_cases i <;> simp
@[simp] theorem imm26Field_encodeJ : imm26Field (encodeJ op off) = off := by
  apply BitVec.eq_of_getLsbD_eq; intro i hi
  simp only [imm26Field, encodeJ, BitVec.getLsbD_extractLsb', BitVec.getLsbD_append]
  interval_cases i <;> simp

end Fields

/-! ### A word is its fields -/

theorem encodeI_fields (w : Word) : encodeI (opField w) (rs1Bits w) (r2Bits w) (imm16Field w) = w := by
  apply BitVec.eq_of_getLsbD_eq; intro i hi
  simp only [opField, rs1Bits, r2Bits, imm16Field, encodeI, BitVec.getLsbD_extractLsb', BitVec.getLsbD_append]
  interval_cases i <;> simp

theorem encodeJ_fields (w : Word) : encodeJ (opField w) (imm26Field w) = w := by
  apply BitVec.eq_of_getLsbD_eq; intro i hi
  simp only [opField, imm26Field, encodeJ, BitVec.getLsbD_extractLsb', BitVec.getLsbD_append]
  interval_cases i <;> simp

theorem encodeR_fields (w : Word) (h : opField w = 0x00#6) :
    encodeR (funcField w) (regOfBits (r3Bits w)) (regOfBits (rs1Bits w)) (regOfBits (r2Bits w)) = w := by
  unfold encodeR
  rw [← h]
  apply BitVec.eq_of_getLsbD_eq; intro i hi
  simp only [bitsOfReg_regOfBits, opField, rs1Bits, r2Bits, r3Bits, funcField, BitVec.getLsbD_extractLsb',
    BitVec.getLsbD_append]
  interval_cases i <;> simp

/-! ### The masks of R78 -/

/-- The mask of the I and J rows keeps `op`. -/
theorem and_mask_op (w : Word) : w &&& 0xFC000000#32 = opField w ++ 0#26 := by
  apply BitVec.eq_of_getLsbD_eq; intro i hi
  simp only [opField, BitVec.getLsbD_extractLsb', BitVec.getLsbD_append, BitVec.getLsbD_and]
  interval_cases i <;> simp

/-- The mask of the R rows keeps `op` and `func`. -/
theorem and_mask_func (w : Word) : w &&& 0xFC0007FF#32 = opField w ++ 0#15 ++ funcField w := by
  apply BitVec.eq_of_getLsbD_eq; intro i hi
  simp only [opField, funcField, BitVec.getLsbD_extractLsb', BitVec.getLsbD_append, BitVec.getLsbD_and]
  interval_cases i <;> simp

/-- A word matches an I or J row iff its `op` is the row's. -/
theorem mask_op_iff (w : Word) (op : BitVec 6) : w &&& 0xFC000000#32 = op ++ 0#26 ↔ opField w = op := by
  rw [and_mask_op]
  constructor
  · intro h
    have := congrArg opField h
    change opField (encodeJ (opField w) 0#26) = opField (encodeJ op 0#26) at this
    simpa using this
  · rintro rfl; rfl

/-- A word matches an R row iff its `op` is 0 and its `func` is the row's. -/
theorem mask_func_iff (w : Word) (func : BitVec 11) :
    w &&& 0xFC0007FF#32 = 0x00#6 ++ 0#15 ++ func ↔ opField w = 0x00#6 ∧ funcField w = func := by
  rw [and_mask_func]
  constructor
  · intro h
    have e : ∀ (o : BitVec 6) (f : BitVec 11), (o ++ 0#15 ++ f : BitVec 32) = encodeI o 0#5 0#5 (0#5 ++ f) := by
      intro o f
      apply BitVec.eq_of_getLsbD_eq; intro i hi
      simp only [encodeI, BitVec.getLsbD_append]
      interval_cases i <;> simp
    rw [e, e] at h
    have ho := congrArg opField h
    have hi := congrArg imm16Field h
    simp only [opField_encodeI, imm16Field_encodeI] at ho hi
    refine ⟨ho, ?_⟩
    apply BitVec.eq_of_getLsbD_eq; intro k hk
    have hb := congrArg (fun v => BitVec.getLsbD v k) hi
    simp only [BitVec.getLsbD_append, hk, ↓reduceIte] at hb
    exact hb
  · rintro ⟨ho, rfl⟩; rw [ho]

end Sys2Proof.Machine
end

