-- ==== Sys2Proof/Laws/Decoding.lean ====
section
/-! SUPPORT. Laws/Decoding.lean: what the decoder answers, by `op` and `func`, and the only ways it answers an instruction. -/

namespace Sys2Proof.Machine

variable {w : Word}

/-! ### The R-type group -/

theorem decode_rtype (h : opField w = 0x00#6) : decode w = decodeRType w := by simp only [decode, h]

section RType
variable (h : opField w = 0x00#6)
include h
theorem decode_sll (f : funcField w = 0x004#11) :
    decode w = .ok (.sll (regOfBits (r3Bits w)) (regOfBits (rs1Bits w)) (regOfBits (r2Bits w))) := by
  rw [decode_rtype h]; simp only [decodeRType, f]
theorem decode_srl (f : funcField w = 0x006#11) :
    decode w = .ok (.srl (regOfBits (r3Bits w)) (regOfBits (rs1Bits w)) (regOfBits (r2Bits w))) := by
  rw [decode_rtype h]; simp only [decodeRType, f]
theorem decode_add (f : funcField w = 0x020#11) :
    decode w = .ok (.add (regOfBits (r3Bits w)) (regOfBits (rs1Bits w)) (regOfBits (r2Bits w))) := by
  rw [decode_rtype h]; simp only [decodeRType, f]
theorem decode_sub (f : funcField w = 0x022#11) :
    decode w = .ok (.sub (regOfBits (r3Bits w)) (regOfBits (rs1Bits w)) (regOfBits (r2Bits w))) := by
  rw [decode_rtype h]; simp only [decodeRType, f]
theorem decode_and (f : funcField w = 0x024#11) :
    decode w = .ok (.and (regOfBits (r3Bits w)) (regOfBits (rs1Bits w)) (regOfBits (r2Bits w))) := by
  rw [decode_rtype h]; simp only [decodeRType, f]
theorem decode_or (f : funcField w = 0x025#11) :
    decode w = .ok (.or (regOfBits (r3Bits w)) (regOfBits (rs1Bits w)) (regOfBits (r2Bits w))) := by
  rw [decode_rtype h]; simp only [decodeRType, f]
theorem decode_xor (f : funcField w = 0x026#11) :
    decode w = .ok (.xor (regOfBits (r3Bits w)) (regOfBits (rs1Bits w)) (regOfBits (r2Bits w))) := by
  rw [decode_rtype h]; simp only [decodeRType, f]
theorem decode_sne (f : funcField w = 0x029#11) :
    decode w = .ok (.sne (regOfBits (r3Bits w)) (regOfBits (rs1Bits w)) (regOfBits (r2Bits w))) := by
  rw [decode_rtype h]; simp only [decodeRType, f]
theorem decode_sle (f : funcField w = 0x02c#11) :
    decode w = .ok (.sle (regOfBits (r3Bits w)) (regOfBits (rs1Bits w)) (regOfBits (r2Bits w))) := by
  rw [decode_rtype h]; simp only [decodeRType, f]
theorem decode_sge (f : funcField w = 0x02d#11) :
    decode w = .ok (.sge (regOfBits (r3Bits w)) (regOfBits (rs1Bits w)) (regOfBits (r2Bits w))) := by
  rw [decode_rtype h]; simp only [decodeRType, f]
end RType

/-! ### The I and J formats and `nop` -/

theorem decode_j (h : opField w = 0x02#6) : decode w = .ok (.j (imm26Field w)) := by simp only [decode, h]
theorem decode_jal (h : opField w = 0x03#6) : decode w = .ok (.jal (imm26Field w)) := by simp only [decode, h]
theorem decode_beqz (h : opField w = 0x04#6) :
    decode w = .ok (.beqz (regOfBits (rs1Bits w)) (r2Bits w) (imm16Field w)) := by simp only [decode, h]
theorem decode_bnez (h : opField w = 0x05#6) :
    decode w = .ok (.bnez (regOfBits (rs1Bits w)) (r2Bits w) (imm16Field w)) := by simp only [decode, h]
theorem decode_addi (h : opField w = 0x08#6) :
    decode w = .ok (.addi (regOfBits (r2Bits w)) (regOfBits (rs1Bits w)) (imm16Field w)) := by simp only [decode, h]
theorem decode_subi (h : opField w = 0x0a#6) :
    decode w = .ok (.subi (regOfBits (r2Bits w)) (regOfBits (rs1Bits w)) (imm16Field w)) := by simp only [decode, h]
theorem decode_andi (h : opField w = 0x0c#6) :
    decode w = .ok (.andi (regOfBits (r2Bits w)) (regOfBits (rs1Bits w)) (imm16Field w)) := by simp only [decode, h]
theorem decode_ori (h : opField w = 0x0d#6) :
    decode w = .ok (.ori (regOfBits (r2Bits w)) (regOfBits (rs1Bits w)) (imm16Field w)) := by simp only [decode, h]
theorem decode_xori (h : opField w = 0x0e#6) :
    decode w = .ok (.xori (regOfBits (r2Bits w)) (regOfBits (rs1Bits w)) (imm16Field w)) := by simp only [decode, h]
theorem decode_slli (h : opField w = 0x14#6) :
    decode w = .ok (.slli (regOfBits (r2Bits w)) (regOfBits (rs1Bits w)) (imm16Field w)) := by simp only [decode, h]
theorem decode_nop (h : opField w = 0x15#6) (hz : imm26Field w = 0#26) : decode w = .ok .nop := by
  simp only [decode, h, hz, ↓reduceIte]
theorem decode_nopTail (h : opField w = 0x15#6) (hz : imm26Field w ≠ 0#26) :
    decode w = .error (.nopTail (imm26Field w)) := by
  simp only [decode, h, hz, ↓reduceIte]
theorem decode_srli (h : opField w = 0x16#6) :
    decode w = .ok (.srli (regOfBits (r2Bits w)) (regOfBits (rs1Bits w)) (imm16Field w)) := by simp only [decode, h]
theorem decode_snei (h : opField w = 0x19#6) :
    decode w = .ok (.snei (regOfBits (r2Bits w)) (regOfBits (rs1Bits w)) (imm16Field w)) := by simp only [decode, h]
theorem decode_slei (h : opField w = 0x1c#6) :
    decode w = .ok (.slei (regOfBits (r2Bits w)) (regOfBits (rs1Bits w)) (imm16Field w)) := by simp only [decode, h]
theorem decode_sgei (h : opField w = 0x1d#6) :
    decode w = .ok (.sgei (regOfBits (r2Bits w)) (regOfBits (rs1Bits w)) (imm16Field w)) := by simp only [decode, h]
theorem decode_lw (h : opField w = 0x23#6) :
    decode w = .ok (.lw (regOfBits (r2Bits w)) (regOfBits (rs1Bits w)) (imm16Field w)) := by simp only [decode, h]
theorem decode_sw (h : opField w = 0x2b#6) :
    decode w = .ok (.sw (regOfBits (rs1Bits w)) (regOfBits (r2Bits w)) (imm16Field w)) := by simp only [decode, h]

/-! ### Masked words -/

theorem opField_of_mask {b : Word} (h : w &&& 0xFC000000#32 = b) : opField w = opField b := by
  have : opField (w &&& 0xFC000000#32) = opField w := by
    rw [and_mask_op]; exact opField_encodeJ _ _
  rw [← this, h]

theorem opField_of_mask_func {b : Word} (h : w &&& 0xFC0007FF#32 = b) : opField w = opField b := by
  rw [← h]
  apply BitVec.eq_of_getLsbD_eq; intro i hi
  simp only [opField, BitVec.getLsbD_extractLsb', BitVec.getLsbD_and]
  interval_cases i <;> simp

theorem funcField_of_mask {b : Word} (h : w &&& 0xFC0007FF#32 = b) : funcField w = funcField b := by
  rw [← h]
  apply BitVec.eq_of_getLsbD_eq; intro i hi
  simp only [funcField, BitVec.getLsbD_extractLsb', BitVec.getLsbD_and]
  interval_cases i <;> simp

/-! ### What a word of each format is -/

/-- A word with the fields of an R-type instruction is its encoding. -/
theorem rTypeWord_iff (w : Word) (func : BitVec 11) (rd rs1 rs2 : RegNum) :
    RTypeWord w (0x00#6 ++ 0#15 ++ func) rd rs1 rs2 ↔ encodeR func rd rs1 rs2 = w := by
  unfold RTypeWord
  rw [mask_func_iff, slice_rs1, slice_r2, slice_r3, ← regOfBits_eq_iff, ← regOfBits_eq_iff, ← regOfBits_eq_iff]
  constructor
  · rintro ⟨⟨ho, rfl⟩, rfl, rfl, rfl⟩; exact encodeR_fields w ho
  · rintro rfl; simp

/-- A word with the fields of an I-type instruction is its encoding. -/
theorem iTypeWord_iff (w : Word) (op : BitVec 6) (a b : BitVec 5) (imm : BitVec 16) :
    ITypeWord w (op ++ 0#26) a.toNat b.toNat imm ↔ encodeI op a b imm = w := by
  unfold ITypeWord
  rw [mask_op_iff, slice_rs1, slice_r2, slice_imm16, ← BitVec.toNat_eq, ← BitVec.toNat_eq, ← BitVec.toNat_eq]
  constructor
  · rintro ⟨rfl, rfl, rfl, rfl⟩; exact encodeI_fields w
  · rintro rfl; simp

/-- A word with the fields of a J-type instruction is its encoding. -/
theorem jTypeWord_iff (w : Word) (op : BitVec 6) (off : BitVec 26) :
    JTypeWord w (op ++ 0#26) off ↔ encodeJ op off = w := by
  unfold JTypeWord
  rw [mask_op_iff, slice_imm26, ← BitVec.toNat_eq]
  constructor
  · rintro ⟨rfl, rfl⟩; exact encodeJ_fields w
  · rintro rfl; simp

@[simp] theorem toNat_bitsOfReg (r : RegNum) : (bitsOfReg r).toNat = r.val := by
  have := r.isLt
  simp [bitsOfReg]

end Sys2Proof.Machine
end

