-- ==== Sys2Proof/Laws/Memory.lean ====
section
/-! SUPPORT. Laws/Memory.lean: what the byte maps and the words in them do. The read-after-write lemmas hold for every list; the
canonical form is kept by every operation. -/

namespace Sys2Proof.Machine

/-! ### One cell -/

theorem cellAt_putCell (m : Memory) (a a' : Nat) (b : Byte) :
    cellAt (putCell m a b) a' = if a' = a then some b else cellAt m a' := by
  induction m with
  | nil => simp [putCell, cellAt, eq_comm]
  | cons c cs ih =>
    simp only [putCell]
    split
    · simp [cellAt, eq_comm]
    · split
      · next h =>
        subst h
        by_cases h2 : c.1 = a'
        · simp [cellAt, h2]
        · simp [cellAt, h2, Ne.symm h2]
      · next h =>
        simp only [cellAt, ih]
        by_cases h2 : c.1 = a'
        · subst h2; simp [h]
        · simp [h2]

theorem cellAt_dropCell (m : Memory) (a a' : Nat) :
    cellAt (dropCell m a) a' = if a' = a then none else cellAt m a' := by
  induction m with
  | nil => simp [dropCell, cellAt]
  | cons c cs ih =>
    simp only [dropCell]
    split
    · next h =>
      rw [ih]
      by_cases h2 : a' = a
      · simp [h2]
      · simp [cellAt, h2, h, Ne.symm h2]
    · next h =>
      simp only [cellAt, ih]
      by_cases h2 : c.1 = a'
      · subst h2; simp [h]
      · simp [h2]

theorem mem_of_cellAt {m : Memory} {a : Nat} {b : Byte} (h : cellAt m a = some b) : (a, b) ∈ m := by
  induction m with
  | nil => simp [cellAt] at h
  | cons c cs ih =>
    simp only [cellAt] at h
    split at h
    · next e => obtain rfl := Option.some.inj h; subst e; exact List.mem_cons_self ..
    · exact List.mem_cons_of_mem _ (ih h)

theorem cellAt_of_mem {m : Memory} (hm : m.Pairwise (fun c d => c.1 < d.1)) {c : Host.Cell} (h : c ∈ m) :
    cellAt m c.1 = some c.2 := by
  induction m with
  | nil => cases h
  | cons d ds ih =>
    rw [List.pairwise_cons] at hm
    rcases List.mem_cons.1 h with rfl | h
    · simp [cellAt]
    · have := hm.1 c h
      simp only [cellAt]
      rw [if_neg (by omega)]
      exact ih hm.2 h

/-! ### Bytes -/

theorem readByte_writeByte (m : Memory) (a a' : Nat) (b : Byte) :
    (m.writeByte a b).readByte a' = if a' = a then b else m.readByte a' := by
  unfold Memory.writeByte Memory.readByte
  split
  · next h => rw [cellAt_dropCell]; split <;> simp [h]
  · rw [cellAt_putCell]; split <;> simp

/-! ### The order of the cells -/

theorem mem_putCell {m : Memory} {a : Nat} {b : Byte} {c : Host.Cell} (h : c ∈ putCell m a b) : c = (a, b) ∨ c ∈ m := by
  induction m with
  | nil => simpa [putCell] using h
  | cons d ds ih =>
    simp only [putCell] at h
    split at h
    · simpa using h
    · split at h
      · simp only [List.mem_cons] at h ⊢; tauto
      · simp only [List.mem_cons] at h ⊢
        rcases h with h | h
        · tauto
        · rcases ih h with h | h <;> tauto

theorem mem_dropCell {m : Memory} {a : Nat} {c : Host.Cell} (h : c ∈ dropCell m a) : c ∈ m := by
  induction m with
  | nil => simp [dropCell] at h
  | cons d ds ih =>
    simp only [dropCell] at h
    split at h
    · exact List.mem_cons_of_mem _ (ih h)
    · simp only [List.mem_cons] at h ⊢
      exact h.imp id ih

theorem pairwise_putCell {m : Memory} (a : Nat) (b : Byte) (h : m.Pairwise (fun c d => c.1 < d.1)) :
    (putCell m a b).Pairwise (fun c d => c.1 < d.1) := by
  induction m with
  | nil => simp [putCell]
  | cons d ds ih =>
    rw [List.pairwise_cons] at h
    simp only [putCell]
    split
    · next hlt =>
      refine List.pairwise_cons.2 ⟨?_, List.pairwise_cons.2 h⟩
      intro c hc
      rcases List.mem_cons.1 hc with rfl | hc
      · exact hlt
      · exact lt_trans hlt (h.1 c hc)
    · split
      · next he =>
        refine List.pairwise_cons.2 ⟨?_, h.2⟩
        intro c hc
        exact he ▸ h.1 c hc
      · next hge hne =>
        refine List.pairwise_cons.2 ⟨?_, ih h.2⟩
        intro c hc
        rcases mem_putCell hc with rfl | hc
        · show d.1 < a; omega
        · exact h.1 c hc

theorem pairwise_dropCell {m : Memory} (a : Nat) (h : m.Pairwise (fun c d => c.1 < d.1)) :
    (dropCell m a).Pairwise (fun c d => c.1 < d.1) := by
  induction m with
  | nil => simp [dropCell]
  | cons d ds ih =>
    rw [List.pairwise_cons] at h
    simp only [dropCell]
    split
    · exact ih h.2
    · exact List.pairwise_cons.2 ⟨fun c hc => h.1 c (mem_dropCell hc), ih h.2⟩

theorem cellsRise_putCell {m : Memory} {a : Nat} (b : Byte) (ha : a < 2 ^ 32) (h : cellsRise m) :
    cellsRise (putCell m a b) := by
  refine ⟨pairwise_putCell a b h.1, fun c hc => ?_⟩
  rcases mem_putCell hc with rfl | hc
  · exact ha
  · exact h.2 c hc

theorem cellsRise_dropCell {m : Memory} (a : Nat) (h : cellsRise m) : cellsRise (dropCell m a) :=
  ⟨pairwise_dropCell a h.1, fun c hc => h.2 c (mem_dropCell hc)⟩

/-! ### The canonical form of the data memory -/

theorem wf_nil : Memory.wf [] := by decide

theorem mem_writeByte {m : Memory} {a : Nat} {b : Byte} {c : Host.Cell} (h : c ∈ m.writeByte a b) :
    c = (a, b) ∨ c ∈ m := by
  unfold Memory.writeByte at h
  split at h
  · exact .inr (mem_dropCell h)
  · exact mem_putCell h

theorem wf_writeByte {m : Memory} {a : Nat} (b : Byte) (ha : a < 2 ^ 32) (h : m.wf) : (m.writeByte a b).wf := by
  unfold Memory.writeByte
  split
  · exact ⟨cellsRise_dropCell a h.1, fun c hc => h.2 c (mem_dropCell hc)⟩
  · next hb =>
    refine ⟨cellsRise_putCell b ha h.1, fun c hc => ?_⟩
    rcases mem_putCell hc with rfl | hc
    · exact hb
    · exact h.2 c hc

theorem wf_writeWord {m : Memory} {a : Nat} (o : ByteOrder) (v : Word) (ha : a + 3 < 2 ^ 32) (h : m.wf) :
    (m.writeWord o a v).wf :=
  wf_writeByte _ (by omega) (wf_writeByte _ (by omega) (wf_writeByte _ (by omega) (wf_writeByte _ (by omega) h)))

/-- A byte listed after a word is stored lies in that word or was listed before. -/
theorem mem_writeWord {m : Memory} {a : Nat} {o : ByteOrder} {v : Word} {c : Host.Cell} (h : c ∈ m.writeWord o a v) :
    (a ≤ c.1 ∧ c.1 ≤ a + 3) ∨ c ∈ m := by
  rcases mem_writeByte h with rfl | h
  · exact .inl (by simp)
  rcases mem_writeByte h with rfl | h
  · exact .inl (by simp)
  rcases mem_writeByte h with rfl | h
  · exact .inl (by simp)
  rcases mem_writeByte h with rfl | h
  · exact .inl (by simp)
  · exact .inr h

/-! ### Words -/

/-- The four bytes of a word, put together again. -/
theorem wordOfBytes_byteOfWord (o : ByteOrder) (v : Word) :
    wordOfBytes o (byteOfWord o v 0) (byteOfWord o v 1) (byteOfWord o v 2) (byteOfWord o v 3) = v := by
  cases o <;>
  · simp only [wordOfBytes, byteOfWord]
    apply BitVec.eq_of_getLsbD_eq
    intro i hi
    simp only [BitVec.getLsbD_append, BitVec.getLsbD_extractLsb']
    interval_cases i <;> simp

/-- One byte of memory after a word is stored. -/
theorem readByte_writeWord (o : ByteOrder) (m : Memory) (a a' : Nat) (v : Word) :
    (m.writeWord o a v).readByte a' =
      if a ≤ a' ∧ a' ≤ a + 3 then byteOfWord o v (a' - a) else m.readByte a' := by
  simp only [Memory.writeWord, readByte_writeByte]
  by_cases h3 : a' = a + 3
  · subst h3; simp
  by_cases h2 : a' = a + 2
  · subst h2; simp
  by_cases h1 : a' = a + 1
  · subst h1; simp
  by_cases h0 : a' = a
  · subst h0; simp
  rw [if_neg h3, if_neg h2, if_neg h1, if_neg h0, if_neg (by omega)]

theorem readWord_writeWord_same (o : ByteOrder) (m : Memory) (a : Nat) (v : Word) :
    (m.writeWord o a v).readWord o a = v := by
  simp only [Memory.readWord, readByte_writeWord]
  simp [wordOfBytes_byteOfWord]

theorem readWord_writeWord_other (o : ByteOrder) (m : Memory) (a a' : Nat) (v : Word)
    (ha : a % 4 = 0) (ha' : a' % 4 = 0) (h : a' ≠ a) :
    (m.writeWord o a v).readWord o a' = m.readWord o a' := by
  simp only [Memory.readWord, readByte_writeWord]
  rw [if_neg (by omega), if_neg (by omega), if_neg (by omega), if_neg (by omega)]

/-- An aligned word after an aligned store. -/
theorem readWord_writeWord (o : ByteOrder) (m : Memory) (a a' : Nat) (v : Word) (ha : a % 4 = 0) (ha' : a' % 4 = 0) :
    (m.writeWord o a v).readWord o a' = if a' = a then v else m.readWord o a' := by
  split
  · next h => subst h; exact readWord_writeWord_same ..
  · next h => exact readWord_writeWord_other _ _ _ _ _ ha ha' h

/-! ### The text -/

/-- The instruction word just placed. -/
theorem textWord_putTextWord_same (o : ByteOrder) (t : Memory) (a : Nat) (w : Word) :
    textWord o (putTextWord o t a w) a = some w := by
  simp [textWord, putTextWord, cellAt_putCell, wordOfBytes_byteOfWord]

theorem cellsRise_putTextWord {t : Memory} {a : Nat} (o : ByteOrder) (w : Word) (ha : a + 3 < 2 ^ 32)
    (h : cellsRise t) : cellsRise (putTextWord o t a w) :=
  cellsRise_putCell _ (by omega) (cellsRise_putCell _ (by omega) (cellsRise_putCell _ (by omega)
    (cellsRise_putCell _ (by omega) h)))

end Sys2Proof.Machine
end

