-- ==== Sys2Proof/Laws/State.lean ====
section
/-! SUPPORT. Laws/State.lean: every field of the state after every update, and what a register read gives after a write. -/

namespace Sys2Proof.Machine

variable (s : State) (r q : RegNum) (v t : Word)

/-! ### `setPc` -/

@[simp] theorem setPc_x : (s.setPc t).x = s.x := rfl
@[simp] theorem setPc_pc : (s.setPc t).pc = t := rfl
@[simp] theorem setPc_mem : (s.setPc t).mem = s.mem := rfl
@[simp] theorem setPc_status : (s.setPc t).status = s.status := rfl
@[simp] theorem setPc_params : (s.setPc t).params = s.params := rfl
@[simp] theorem setPc_reg : (s.setPc t).reg r = s.reg r := rfl

/-! ### `setReg` -/

@[simp] theorem setReg_pc : (s.setReg r v).pc = s.pc := by unfold State.setReg; split <;> rfl
@[simp] theorem setReg_mem : (s.setReg r v).mem = s.mem := by unfold State.setReg; split <;> rfl
@[simp] theorem setReg_status : (s.setReg r v).status = s.status := by unfold State.setReg; split <;> rfl
@[simp] theorem setReg_params : (s.setReg r v).params = s.params := by unfold State.setReg; split <;> rfl

@[simp] theorem reg_zero : s.reg 0 = 0x00000000#32 := rfl

theorem setReg_zero : s.setReg 0 v = s := rfl

theorem reg_setReg_self (h : r ≠ 0) : (s.setReg r v).reg r = v := by
  have h' : r.val ≠ 0 := fun e => h (Fin.ext e)
  simp [State.reg, State.setReg, h']

theorem reg_setReg_other (h : q ≠ r) : (s.setReg r v).reg q = s.reg q := by
  unfold State.reg State.setReg
  split
  · rfl
  · split
    · rfl
    · have : r.val ≠ q.val := fun e => h (Fin.ext e.symm)
      simp only [Vector.getElem_set]
      rw [if_neg (by omega)]

/-- One register write, read back anywhere. -/
theorem reg_setReg : (s.setReg r v).reg q = if q = r ∧ q ≠ 0 then v else s.reg q := by
  by_cases h : q = r
  · subst h
    by_cases h0 : q = 0
    · subst h0; rfl
    · simp [h0, reg_setReg_self]
  · simp [h, reg_setReg_other]

/-- Equal registers are equal storage. -/
theorem x_ext {s t : State} (h : ∀ q : RegNum, s.reg q = t.reg q) : s.x = t.x := by
  apply Vector.ext
  intro i hi
  have := h ⟨i + 1, by omega⟩
  simpa [State.reg] using this

/-- Equal storage reads equally. -/
theorem reg_congr {s t : State} (h : s.x = t.x) (q : RegNum) : s.reg q = t.reg q := by
  unfold State.reg; rw [h]

theorem setReg_x_congr {s t : State} (h : s.x = t.x) (q : RegNum) (v : Word) :
    (s.setReg q v).x = (t.setReg q v).x := by
  unfold State.setReg; split
  · exact h
  · simp only [h]

/-! ### `writeAndAdvance` -/

@[simp] theorem writeAndAdvance_pc : (writeAndAdvance s r v).pc = s.nextPc := rfl
@[simp] theorem writeAndAdvance_mem : (writeAndAdvance s r v).mem = s.mem := by simp [writeAndAdvance]
@[simp] theorem writeAndAdvance_status : (writeAndAdvance s r v).status = s.status := by simp [writeAndAdvance]
@[simp] theorem writeAndAdvance_params : (writeAndAdvance s r v).params = s.params := by simp [writeAndAdvance]
@[simp] theorem writeAndAdvance_reg : (writeAndAdvance s r v).reg q = (s.setReg r v).reg q := rfl

/-! ### `raised` -/

@[simp] theorem raised_x (f : Fault) : (s.raised f).x = s.x := rfl
@[simp] theorem raised_pc (f : Fault) : (s.raised f).pc = s.pc := rfl
@[simp] theorem raised_mem (f : Fault) : (s.raised f).mem = s.mem := rfl
@[simp] theorem raised_status (f : Fault) : (s.raised f).status = .faulted f := rfl
@[simp] theorem raised_params (f : Fault) : (s.raised f).params = s.params := rfl
@[simp] theorem raised_reg (f : Fault) : (s.raised f).reg r = s.reg r := rfl

/-! ### `ended` -/

@[simp] theorem ended_x : s.ended.x = s.x := rfl
@[simp] theorem ended_pc : s.ended.pc = s.pc := rfl
@[simp] theorem ended_mem : s.ended.mem = s.mem := rfl
@[simp] theorem ended_status : s.ended.status = .ended := rfl
@[simp] theorem ended_params : s.ended.params = s.params := rfl
@[simp] theorem ended_reg : s.ended.reg r = s.reg r := rfl

/-! ### `placeWord` -/

@[simp] theorem placeWord_x : (s.placeWord t).x = s.x := rfl
@[simp] theorem placeWord_pc : (s.placeWord t).pc = slotOf s := rfl
@[simp] theorem placeWord_mem : (s.placeWord t).mem = s.mem := rfl
@[simp] theorem placeWord_status : (s.placeWord t).status = .running := rfl
@[simp] theorem placeWord_params : (s.placeWord t).params = paramsWithWord s.params (slotOf s) t := rfl

/-! ### `nextPc`, `effAddr`, `target` read what they are named for -/

theorem nextPc_toNat : s.nextPc.toNat = (s.pc.toNat + 4) % 2 ^ 32 := by simp [State.nextPc]

theorem nextPc_congr {s t : State} (h : s.pc = t.pc) : s.nextPc = t.nextPc := by simp [State.nextPc, h]

theorem target_congr {s t : State} (h : s.pc = t.pc) (off : Word) : target s off = target t off := by
  simp [target, State.nextPc, h]

theorem effAddr_congr {s t : State} (h : s.x = t.x) (rs1 : RegNum) (disp : BitVec 16) :
    effAddr s rs1 disp = effAddr t rs1 disp := by simp [effAddr, reg_congr h]

end Sys2Proof.Machine
end

