-- ==== Sys2Proof/Laws/Ops.lean ====
section
/-! SUPPORT. Laws/Ops.lean: what each shared operation can do, said once. -/

namespace Sys2Proof.Machine

/-! ### Addresses -/

theorem aligned_iff (a : Word) : aligned a = true ↔ a.toNat % 4 = 0 := by simp [aligned]

theorem aligned_false_iff (a : Word) : aligned a = false ↔ a.toNat % 4 ≠ 0 := by simp [aligned]

/-- The bytes of an aligned word lie in the address space. -/
theorem aligned_bound {a : Word} (h : aligned a = true) : a.toNat + 3 < 2 ^ 32 := by
  have := (aligned_iff a).1 h
  have := a.isLt
  omega

theorem aligned_slotOf (s : State) : aligned (slotOf s) = true := by
  rw [aligned_iff]
  have h : (slotOf s).toNat % 2 ^ 2 = (slotOf s &&& 3#32).toNat := by
    rw [BitVec.toNat_and]
    exact (Nat.and_two_pow_sub_one_eq_mod _ 2).symm
  have h0 : slotOf s &&& 3#32 = 0#32 := by
    unfold slotOf
    rw [BitVec.and_assoc]
    have : (0xFFFFFFFC#32 &&& 3#32) = 0#32 := by decide
    rw [this, BitVec.and_zero]
  rw [h0] at h
  simpa using h

theorem inText_iff {p : Params} {a : Word} : inText p a = true ↔ ∃ w, textAt p a = some w := Option.isSome_iff_exists

theorem mappedAt_iff {p : Params} {a : Word} :
    mappedAt p a = true ↔ ∃ r ∈ p.mapped, r.first ≤ a.toNat ∧ a.toNat ≤ r.last := by simp [mappedAt]

/-- The memory right after reset is in canonical form. -/
theorem reset_mem_wf : State.reset.mem.wf := wf_nil

/-! ### The checks of an access -/

theorem accessFault_none {p : Params} {a : Word} :
    accessFault p a = none ↔
      a.toNat % 4 = 0 ∧ ¬ (p.textGuard = true ∧ inText p a = true) ∧ mappedAt p a = true := by
  unfold accessFault
  rw [← aligned_iff]
  cases aligned a <;> cases p.textGuard <;> cases inText p a <;> cases mappedAt p a <;> simp

theorem accessFault_misaligned {p : Params} {a : Word} (h : a.toNat % 4 ≠ 0) :
    accessFault p a = some (.misalignedAccess a) := by
  simp [accessFault, (aligned_false_iff a).2 h]

theorem accessFault_text {p : Params} {a : Word} (h : a.toNat % 4 = 0) (hg : p.textGuard = true) (ht : inText p a = true) :
    accessFault p a = some (.textAccess a) := by
  simp [accessFault, (aligned_iff a).2 h, hg, ht]

theorem accessFault_unmapped {p : Params} {a : Word} (h : a.toNat % 4 = 0)
    (hg : ¬ (p.textGuard = true ∧ inText p a = true)) (hm : mappedAt p a = false) :
    accessFault p a = some (.unmappedAccess a) := by
  unfold accessFault
  rw [(aligned_iff a).2 h, hm]
  revert hg
  cases p.textGuard <;> cases inText p a <;> simp

/-! ### The primitives -/

theorem memRead_of_none {s : State} {a : Word} (h : accessFault s.params a = none) :
    memRead s a = .ok (s.mem.readWord s.params.byteOrder a.toNat) := by simp [memRead, h]

theorem memRead_of_some {s : State} {a : Word} {r : Fault} (h : accessFault s.params a = some r) :
    memRead s a = .error r := by simp [memRead, h]

theorem memWrite_of_none {s : State} {a v : Word} (h : accessFault s.params a = none) :
    memWrite s a v = .ok { s with mem := s.mem.writeWord s.params.byteOrder a.toNat v } := by simp [memWrite, h]

theorem memWrite_of_some {s : State} {a v : Word} {r : Fault} (h : accessFault s.params a = some r) :
    memWrite s a v = .error r := by simp [memWrite, h]

theorem fetch_misaligned {s : State} {a : Word} (h : a.toNat % 4 ≠ 0) : fetch s a = .error (.misalignedFetch a) := by
  simp [fetch, (aligned_false_iff a).2 h]

theorem fetch_unmapped {s : State} {a : Word} (h : a.toNat % 4 = 0) (ht : textAt s.params a = none) :
    fetch s a = .error (.unmappedFetch a) := by simp [fetch, (aligned_iff a).2 h, ht]

theorem fetch_text {s : State} {a w : Word} (h : a.toNat % 4 = 0) (ht : textAt s.params a = some w) :
    fetch s a = .ok w := by simp [fetch, (aligned_iff a).2 h, ht]

/-! ### Completion -/

/-- Writing one register and going on. -/
theorem writeAndAdvance_completes (s : State) (rd : RegNum) (v : Word) {P : Word → Prop} (h : rd ≠ 0 → P v) :
    CompletesWriting s (.next (writeAndAdvance s rd v)) rd P := by
  refine ⟨_, rfl, ⟨fun h0 => ?_, ?_, fun q hq => ?_⟩, by simp [Advances, nextPc_toNat], fun a => by simp, by simp, by simp⟩
  · rw [writeAndAdvance_reg, reg_setReg_self _ _ _ h0]; exact h h0
  · rintro rfl; rfl
  · rw [writeAndAdvance_reg, reg_setReg_other _ _ _ _ hq]

/-- Changing `pc` alone. -/
theorem setPc_completes {s : State} {npc : Word} {v : Int} (h : (npc.toNat : Int) = v % 2 ^ 32) :
    CompletesAt s (.next (s.setPc npc)) v := ⟨_, rfl, h, fun _ => rfl, fun _ => rfl, rfl, rfl⟩

/-! ### Loads and stores -/

/-- `lw` completes iff no check fails, with the word of memory in its destination. -/
theorem execLw_cases (rd rs1 : RegNum) (disp : BitVec 16) (s : State) :
    execLw rd rs1 disp s =
      match accessFault s.params (effAddr s rs1 disp) with
      | some r => .fault r
      | none => .next (writeAndAdvance s rd (s.mem.readWord s.params.byteOrder (effAddr s rs1 disp).toNat)) := by
  unfold execLw loadWord memRead
  cases accessFault s.params (effAddr s rs1 disp) <;> rfl

/-- `sw` completes iff no check fails, with its data in the word at the effective address. -/
theorem execSw_cases (rs1 rs2 : RegNum) (disp : BitVec 16) (s : State) :
    execSw rs1 rs2 disp s =
      match accessFault s.params (effAddr s rs1 disp) with
      | some r => .fault r
      | none => .next
          { s with
            mem := s.mem.writeWord s.params.byteOrder (effAddr s rs1 disp).toNat (s.reg rs2)
            pc := s.nextPc } := by
  unfold execSw storeWord memWrite
  cases accessFault s.params (effAddr s rs1 disp) <;> rfl

end Sys2Proof.Machine
end

