-- ==== Sys2Proof/Laws/Exec.lean ====
section
/-! SUPPORT. Laws/Exec.lean: everything an instruction, and a step, can do, as one case list each. -/

namespace Sys2Proof.Machine

/-- The four shapes of a completed instruction. -/
inductive Completed (i : Instr) (s : State) : State → Prop
  /-- One register written, then the next instruction. -/
  | wrote (rd : RegNum) (v : Word) (h : regWrites i = some rd) (hc : transfersControl i = false) :
      Completed i s (writeAndAdvance s rd v)
  /-- `pc` alone. -/
  | moved (npc : Word) (h : regWrites i = none) (hc : transfersControl i = false → npc = s.nextPc) :
      Completed i s (s.setPc npc)
  /-- The link of `jal`. -/
  | linked (npc : Word) (h : regWrites i = some linkReg) (hc : transfersControl i = true) :
      Completed i s ((s.setReg linkReg s.nextPc).setPc npc)
  /-- A word stored. -/
  | stored (rs1 rs2 : RegNum) (disp : BitVec 16) (h : i = .sw rs1 rs2 disp)
      (hok : accessFault s.params (effAddr s rs1 disp) = none) :
      Completed i s
        { s with
          mem := s.mem.writeWord s.params.byteOrder (effAddr s rs1 disp).toNat (s.reg rs2)
          pc := s.nextPc }

/-- What an instruction can do when it completes. -/
theorem exec_next {i : Instr} {s t : State} (h : exec i s = .next t) : Completed i s t := by
  cases i with
  | beqz rs1 u off => cases h; exact .moved _ rfl (by simp [transfersControl, Instr.mnemonic])
  | bnez rs1 u off => cases h; exact .moved _ rfl (by simp [transfersControl, Instr.mnemonic])
  | j off => cases h; exact .moved _ rfl (by simp [transfersControl, Instr.mnemonic])
  | jal off => cases h; exact .linked _ rfl rfl
  | nop => cases h; exact .moved _ rfl (fun _ => rfl)
  | lw rd rs1 disp =>
    rw [exec, execLw_cases] at h
    split at h
    · cases h
    · cases h; exact .wrote rd _ rfl rfl
  | sw rs1 rs2 disp =>
    rw [exec, execSw_cases] at h
    split at h
    · cases h
    · next hn => cases h; exact .stored rs1 rs2 disp rfl hn
  | add rd rs1 rs2 => cases h; exact .wrote rd _ rfl rfl
  | addi rd rs1 imm => cases h; exact .wrote rd _ rfl rfl
  | and rd rs1 rs2 => cases h; exact .wrote rd _ rfl rfl
  | andi rd rs1 imm => cases h; exact .wrote rd _ rfl rfl
  | or rd rs1 rs2 => cases h; exact .wrote rd _ rfl rfl
  | ori rd rs1 imm => cases h; exact .wrote rd _ rfl rfl
  | sge rd rs1 rs2 => cases h; exact .wrote rd _ rfl rfl
  | sgei rd rs1 imm => cases h; exact .wrote rd _ rfl rfl
  | sle rd rs1 rs2 => cases h; exact .wrote rd _ rfl rfl
  | slei rd rs1 imm => cases h; exact .wrote rd _ rfl rfl
  | sll rd rs1 rs2 => cases h; exact .wrote rd _ rfl rfl
  | slli rd rs1 imm => cases h; exact .wrote rd _ rfl rfl
  | sne rd rs1 rs2 => cases h; exact .wrote rd _ rfl rfl
  | snei rd rs1 imm => cases h; exact .wrote rd _ rfl rfl
  | srl rd rs1 rs2 => cases h; exact .wrote rd _ rfl rfl
  | srli rd rs1 imm => cases h; exact .wrote rd _ rfl rfl
  | sub rd rs1 rs2 => cases h; exact .wrote rd _ rfl rfl
  | subi rd rs1 imm => cases h; exact .wrote rd _ rfl rfl
  | xor rd rs1 rs2 => cases h; exact .wrote rd _ rfl rfl
  | xori rd rs1 imm => cases h; exact .wrote rd _ rfl rfl

/-- No instruction writes the parameters or the run status. -/
theorem exec_keepsRun {i : Instr} {s t : State} (h : exec i s = .next t) : KeepsRun s t := by
  cases exec_next h <;> simp [KeepsRun]

/-- What a step can be. -/
inductive StepCase (s : State) : Host.Outcome State Fault Refusal → Prop
  | finished (h : s.status = .ended) : StepCase s (.refused .runEnded)
  | stopped (r : Fault) (h : s.status = .faulted r) : StepCase s (.fault r)
  | ends (h : s.status = .running) (he : endAddr s.params = some s.pc) :
      StepCase s (.next s.ended)
  | fetchFault (r : Fault) (h : s.status = .running) (he : endAddr s.params ≠ some s.pc) (hf : fetch s s.pc = .error r) :
      StepCase s (.fault r)
  | illegal (w : Word) (e : Reserved) (h : s.status = .running) (he : endAddr s.params ≠ some s.pc)
      (hf : fetch s s.pc = .ok w) (hd : decode w = .error e) : StepCase s (.fault (.illegalInstruction w s.pc))
  | runs (w : Word) (i : Instr) (h : s.status = .running) (he : endAddr s.params ≠ some s.pc)
      (hf : fetch s s.pc = .ok w) (hd : decode w = .ok i) : StepCase s (exec i s)

theorem step_cases (s : State) : StepCase s (step s) := by
  unfold step issue
  cases hs : s.status with
  | ended => exact .finished hs
  | faulted r => exact .stopped r hs
  | running =>
    simp only
    by_cases he : endAddr s.params = some s.pc
    · rw [if_pos he]; exact .ends hs he
    · rw [if_neg he]
      unfold issueAt
      cases hf : fetch s s.pc with
      | error r => exact .fetchFault r hs he hf
      | ok w =>
        simp only
        cases hd : decode w with
        | error e => exact .illegal w e hs he hf hd
        | ok i => exact .runs w i hs he hf hd

/-! ### The same, from the conditions -/

section Conditions
variable {s : State} (hs : s.status = .running)
include hs

theorem step_atEnd (he : endAddr s.params = some s.pc) : step s = .next s.ended := by
  unfold step issue; rw [hs]; simp only [if_pos he]

theorem step_fetchFault {r : Fault} (he : endAddr s.params ≠ some s.pc) (hf : fetch s s.pc = .error r) :
    step s = .fault r := by
  unfold step issue; rw [hs]; simp only [if_neg he, issueAt, hf]; rfl

theorem step_illegal {w : Word} {e : Reserved} (he : endAddr s.params ≠ some s.pc) (hf : fetch s s.pc = .ok w)
    (hd : decode w = .error e) : step s = .fault (.illegalInstruction w s.pc) := by
  unfold step issue; rw [hs]; simp only [if_neg he, issueAt, hf, hd]; rfl

theorem step_run {w : Word} {i : Instr} (he : endAddr s.params ≠ some s.pc) (hf : fetch s s.pc = .ok w)
    (hd : decode w = .ok i) : step s = exec i s := by
  unfold step issue; rw [hs]; simp only [if_neg he, issueAt, hf, hd]

end Conditions

/-- A step that answers a state is the end of a run or an instruction. -/
theorem step_next {s t : State} (h : step s = .next t) :
    s.status = .running ∧ ((endAddr s.params = some s.pc ∧ t = s.ended) ∨ ∃ i, exec i s = .next t) := by
  have hc := step_cases s
  rw [h] at hc
  generalize ho : Host.Outcome.next t = o at hc
  cases hc with
  | finished => cases ho
  | stopped => cases ho
  | ends h1 h2 => cases ho; exact ⟨h1, .inl ⟨h2, rfl⟩⟩
  | fetchFault => cases ho
  | illegal => cases ho
  | runs w i h1 => exact ⟨h1, .inr ⟨i, rfl⟩⟩

end Sys2Proof.Machine
end

