-- ==== Sys2Proof/Laws/PerInstr.lean ====
section
/-! SUPPORT. Laws/PerInstr.lean: the word of every instruction matches its own row of R78. -/

namespace Sys2Proof.Laws.MatchesOwnRow

open Sys2Proof.Machine

/-- The encoded word and its row's mask give the row's match bits. -/
def Statement (i : Instr) : Prop :=
  ∃ row ∈ opcodeRows, row.mnemonic = i.mnemonic ∧ encode i &&& row.mask = row.bits

/-- The rows of the R format, by `func`. -/
theorem ofR (func : BitVec 11) (rd rs1 rs2 : RegNum) :
    encodeR func rd rs1 rs2 &&& 0xFC0007FF#32 = 0x00#6 ++ 0#15 ++ func :=
  (mask_func_iff _ _).2 ⟨opField_encodeR .., funcField_encodeR ..⟩

/-- The rows of the I format, by `op`. -/
theorem ofI (op : BitVec 6) (a b : BitVec 5) (imm : BitVec 16) :
    encodeI op a b imm &&& 0xFC000000#32 = op ++ 0#26 := (mask_op_iff _ _).2 (opField_encodeI ..)

/-- The rows of the J format, by `op`. -/
theorem ofJ (op : BitVec 6) (off : BitVec 26) : encodeJ op off &&& 0xFC000000#32 = op ++ 0#26 :=
  (mask_op_iff _ _).2 (opField_encodeJ ..)

variable (rd rs1 rs2 : RegNum) (u : BitVec 5) (imm : BitVec 16) (off : BitVec 26)

theorem add : Statement (.add rd rs1 rs2) := ⟨⟨.add, _, _⟩, by decide, rfl, ofR ..⟩
theorem addi : Statement (.addi rd rs1 imm) := ⟨⟨.addi, _, _⟩, by decide, rfl, ofI ..⟩
theorem and : Statement (.and rd rs1 rs2) := ⟨⟨.and, _, _⟩, by decide, rfl, ofR ..⟩
theorem andi : Statement (.andi rd rs1 imm) := ⟨⟨.andi, _, _⟩, by decide, rfl, ofI ..⟩
theorem beqz : Statement (.beqz rs1 u imm) := ⟨⟨.beqz, _, _⟩, by decide, rfl, ofI ..⟩
theorem bnez : Statement (.bnez rs1 u imm) := ⟨⟨.bnez, _, _⟩, by decide, rfl, ofI ..⟩
theorem j : Statement (.j off) := ⟨⟨.j, _, _⟩, by decide, rfl, ofJ ..⟩
theorem jal : Statement (.jal off) := ⟨⟨.jal, _, _⟩, by decide, rfl, ofJ ..⟩
theorem lw : Statement (.lw rd rs1 imm) := ⟨⟨.lw, _, _⟩, by decide, rfl, ofI ..⟩
theorem nop : Statement .nop := ⟨⟨.nop, 0xFFFFFFFF#32, 0x54000000#32⟩, by decide, rfl, by decide⟩
theorem or : Statement (.or rd rs1 rs2) := ⟨⟨.or, _, _⟩, by decide, rfl, ofR ..⟩
theorem ori : Statement (.ori rd rs1 imm) := ⟨⟨.ori, _, _⟩, by decide, rfl, ofI ..⟩
theorem sge : Statement (.sge rd rs1 rs2) := ⟨⟨.sge, _, _⟩, by decide, rfl, ofR ..⟩
theorem sgei : Statement (.sgei rd rs1 imm) := ⟨⟨.sgei, _, _⟩, by decide, rfl, ofI ..⟩
theorem sle : Statement (.sle rd rs1 rs2) := ⟨⟨.sle, _, _⟩, by decide, rfl, ofR ..⟩
theorem slei : Statement (.slei rd rs1 imm) := ⟨⟨.slei, _, _⟩, by decide, rfl, ofI ..⟩
theorem sll : Statement (.sll rd rs1 rs2) := ⟨⟨.sll, _, _⟩, by decide, rfl, ofR ..⟩
theorem slli : Statement (.slli rd rs1 imm) := ⟨⟨.slli, _, _⟩, by decide, rfl, ofI ..⟩
theorem sne : Statement (.sne rd rs1 rs2) := ⟨⟨.sne, _, _⟩, by decide, rfl, ofR ..⟩
theorem snei : Statement (.snei rd rs1 imm) := ⟨⟨.snei, _, _⟩, by decide, rfl, ofI ..⟩
theorem srl : Statement (.srl rd rs1 rs2) := ⟨⟨.srl, _, _⟩, by decide, rfl, ofR ..⟩
theorem srli : Statement (.srli rd rs1 imm) := ⟨⟨.srli, _, _⟩, by decide, rfl, ofI ..⟩
theorem sub : Statement (.sub rd rs1 rs2) := ⟨⟨.sub, _, _⟩, by decide, rfl, ofR ..⟩
theorem subi : Statement (.subi rd rs1 imm) := ⟨⟨.subi, _, _⟩, by decide, rfl, ofI ..⟩
theorem sw : Statement (.sw rs1 rs2 imm) := ⟨⟨.sw, _, _⟩, by decide, rfl, ofI ..⟩
theorem xor : Statement (.xor rd rs1 rs2) := ⟨⟨.xor, _, _⟩, by decide, rfl, ofR ..⟩
theorem xori : Statement (.xori rd rs1 imm) := ⟨⟨.xori, _, _⟩, by decide, rfl, ofI ..⟩

end Sys2Proof.Laws.MatchesOwnRow
end

