-- ==== Sys2Proof/Laws/Values.lean ====
section
/-! SUPPORT. Laws/Values.lean: the spec's readings of words and fields (`00_scope.md` R5, R6) against the model's operations. -/

namespace Sys2Proof.Machine

/-! ### Signed readings -/

theorem signedVal_eq_toInt (v : Word) : signedVal v = v.toInt := by
  unfold signedVal
  rw [BitVec.toInt_eq_toNat_cond]
  split <;> split <;> omega

theorem fieldVal_eq_toInt {n : Nat} (hn : 0 < n) (v : BitVec n) : fieldVal v = v.toInt := by
  obtain ⟨k, rfl⟩ : ∃ k, n = k + 1 := ⟨n - 1, by omega⟩
  have := v.isLt
  unfold fieldVal
  rw [BitVec.toInt_eq_toNat_cond, Nat.add_sub_cancel]
  rw [pow_succ] at *
  split <;> split <;> first | rfl | omega

theorem toInt_sext16 (v : BitVec 16) : (sext16 v).toInt = fieldVal v := by
  rw [fieldVal_eq_toInt (by decide), sext16, BitVec.toInt_signExtend_of_le (by decide)]

theorem toInt_sext26 (v : BitVec 26) : (sext26 v).toInt = fieldVal v := by
  rw [fieldVal_eq_toInt (by decide), sext26, BitVec.toInt_signExtend_of_le (by decide)]

/-! ### Sums and differences modulo `2^32` -/

/-- The unsigned and the signed reading of a word differ by a multiple of `2^32`. -/
theorem toNat_eq_toInt_add (v : Word) : ∃ k : Int, (v.toNat : Int) = v.toInt + 2 ^ 32 * k := by
  rw [BitVec.toInt_eq_toNat_cond]
  split
  · exact ⟨0, by simp⟩
  · exact ⟨1, by omega⟩

theorem toNat_add_toInt (a b : Word) : ((a + b).toNat : Int) = (a.toNat + b.toInt) % 2 ^ 32 := by
  obtain ⟨k, hk⟩ := toNat_eq_toInt_add b
  rw [BitVec.toNat_add]
  omega

theorem toNat_sub_toInt (a b : Word) : ((a - b).toNat : Int) = (a.toNat - b.toInt) % 2 ^ 32 := by
  obtain ⟨k, hk⟩ := toNat_eq_toInt_add b
  have := b.isLt
  rw [BitVec.toNat_sub]
  omega

theorem toNat_wrap (v : Int) : ((wrap v).toNat : Int) = v % 2 ^ 32 := by
  unfold wrap
  rw [BitVec.toNat_ofInt]
  omega

theorem wrap_eq_of_toNat {a : Word} {v : Int} (h : (a.toNat : Int) = v % 2 ^ 32) : wrap v = a := by
  have := toNat_wrap v
  apply BitVec.eq_of_toNat_eq
  omega

theorem wrap_fieldVal (imm : BitVec 16) : wrap (fieldVal imm) = sext16 imm := by
  obtain ⟨k, hk⟩ := toNat_eq_toInt_add (sext16 imm)
  have := (sext16 imm).isLt
  apply wrap_eq_of_toNat
  rw [← toInt_sext16]
  omega

/-! ### Addresses and shift amounts -/

/-- R58. -/
theorem wrap_effAddr (s : State) (r : RegNum) (disp : BitVec 16) :
    wrap ((s.reg r).toNat + fieldVal disp) = effAddr s r disp := by
  apply wrap_eq_of_toNat
  rw [effAddr, toNat_add_toInt, toInt_sext16]

/-- R150, the branches. -/
theorem toNat_target16 (s : State) (off : BitVec 16) :
    ((target s (sext16 off)).toNat : Int) = (s.pc.toNat + 4 + fieldVal off) % 2 ^ 32 := by
  rw [target, toNat_add_toInt, toInt_sext16, nextPc_toNat]
  omega

/-- R150, the jumps. -/
theorem toNat_target26 (s : State) (off : BitVec 26) :
    ((target s (sext26 off)).toNat : Int) = (s.pc.toNat + 4 + fieldVal off) % 2 ^ 32 := by
  rw [target, toNat_add_toInt, toInt_sext26, nextPc_toNat]
  omega

theorem shamtOfWord_eq_slice (b : Word) : shamtOfWord b = slice b 4 0 := by
  simp [shamtOfWord, slice]

theorem shamtOfImm_eq_mod (imm : BitVec 16) : shamtOfImm imm = imm.toNat % 32 := by simp [shamtOfImm]

end Sys2Proof.Machine
end

