-- ==== Sys2Proof/Tests/Slice0.lean ====
section
/-! SUPPORT. Tests/Slice0.lean: tests of the model against the spec's own words and vectors (`95_test_vectors.md`, cited as TV), and
a witness for the hypotheses of every statement that has some. -/

namespace Sys2Proof.Tests

open Sys2Proof Sys2Proof.Machine

/-! ### Helpers: a small machine, and what is looked at after one step -/

/-- A text of some words, in the default byte order. -/
def testText (ws : List (Nat × Word)) : Memory := ws.foldl (fun t p => putTextWord .big t p.1 p.2) []

/-- The address map of `95_test_vectors.md` section 2. -/
def testParams (ws : List (Nat × Word)) : Params :=
  { Params.default with text := testText ws, mapped := [{ first := 0x100, last := 0xFFC }] }

/-- A running machine at `a` with these words of text, registers and words of data. -/
def testState (a : Word) (ws : List (Nat × Word)) (rs : List (RegNum × Word)) (ds : List (Nat × Word)) : State :=
  let s0 : State :=
    { x := Vector.replicate 31 0#32, pc := a,
      mem := ds.foldl (fun m p => m.writeWord .big p.1 p.2) [], status := .running, params := testParams ws }
  rs.foldl (fun s p => s.setReg p.1 p.2) s0

/-- One word of text at `a`. -/
def testOne (a w : Word) (rs : List (RegNum × Word)) (ds : List (Nat × Word)) : State :=
  testState a [(a.toNat, w)] rs ds

def nextOf (o : Host.Outcome State Fault Refusal) : Option State :=
  match o with
  | .next s => some s
  | _ => none

def faultOf (o : Host.Outcome State Fault Refusal) : Option Fault :=
  match o with
  | .fault r => some r
  | _ => none

def refusalOf (o : Host.Outcome State Fault Refusal) : Option Refusal :=
  match o with
  | .refused r => some r
  | _ => none

/-- `pc` and one register after a step. -/
def pcAndReg (o : Host.Outcome State Fault Refusal) (r : RegNum) : Option (Word × Word) :=
  (nextOf o).map fun s => (s.pc, s.reg r)

/-- `pc` and one word of data memory after a step. -/
def pcAndWord (o : Host.Outcome State Fault Refusal) (a : Nat) : Option (Word × Word) :=
  (nextOf o).map fun s => (s.pc, s.mem.readWord s.params.byteOrder a)

/-! ### Well-formed instructions: each check refuses -/

theorem test_wellFormed_beqz : (Instr.beqz 1 0#5 8#16).wellFormed = true ∧ (Instr.beqz 1 31#5 8#16).wellFormed = false := by decide
theorem test_wellFormed_bnez : (Instr.bnez 1 0#5 8#16).wellFormed = true ∧ (Instr.bnez 1 1#5 8#16).wellFormed = false := by decide
theorem test_wellFormed_slli : (Instr.slli 2 1 31#16).wellFormed = true ∧ (Instr.slli 2 1 32#16).wellFormed = false := by decide
theorem test_wellFormed_srli : (Instr.srli 2 1 31#16).wellFormed = true ∧ (Instr.srli 2 1 0xFFE1#16).wellFormed = false := by decide

/-! ### Decoding: the source's example words, field by field (TV 1.1), and the derived word of `jal` (TV 2.4) -/

theorem test_decode_add : 0b000000#6 ++ 0b10100#5 ++ 0b01010#5 ++ 0b01001#5 ++ 0b00000100000#11 = 0x028A4820#32 ∧
    decode 0x028A4820#32 = .ok (.add 9 20 10) ∧ encode (.add 9 20 10) = 0x028A4820#32 := by decide
theorem test_decode_addi : 0b001000#6 ++ 0b00010#5 ++ 0b00001#5 ++ 0b1111111111111011#16 = 0x2041FFFB#32 ∧
    decode 0x2041FFFB#32 = .ok (.addi 1 2 0xFFFB#16) ∧ encode (.addi 1 2 0xFFFB#16) = 0x2041FFFB#32 := by decide
theorem test_decode_and : 0b000000#6 ++ 0b00011#5 ++ 0b01010#5 ++ 0b01001#5 ++ 0b00000100100#11 = 0x006A4824#32 ∧
    decode 0x006A4824#32 = .ok (.and 9 3 10) ∧ encode (.and 9 3 10) = 0x006A4824#32 := by decide
theorem test_decode_andi : 0b001100#6 ++ 0b01001#5 ++ 0b10100#5 ++ 0b0000000000001000#16 = 0x31340008#32 ∧
    decode 0x31340008#32 = .ok (.andi 20 9 0x0008#16) ∧ encode (.andi 20 9 0x0008#16) = 0x31340008#32 := by decide
theorem test_decode_beqz : 0b000100#6 ++ 0b00000#5 ++ 0b00000#5 ++ 0b1111111111101110#16 = 0x1000FFEE#32 ∧
    decode 0x1000FFEE#32 = .ok (.beqz 0 0#5 0xFFEE#16) ∧ encode (.beqz 0 0#5 0xFFEE#16) = 0x1000FFEE#32 := by decide
theorem test_decode_bnez : 0b000101#6 ++ 0b00010#5 ++ 0b00000#5 ++ 0b1111111111100010#16 = 0x1440FFE2#32 ∧
    decode 0x1440FFE2#32 = .ok (.bnez 2 0#5 0xFFE2#16) ∧ encode (.bnez 2 0#5 0xFFE2#16) = 0x1440FFE2#32 := by decide
theorem test_decode_j : 0b000010#6 ++ 0b11111111111111111100111100#26 = 0x0BFFFF3C#32 ∧
    decode 0x0BFFFF3C#32 = .ok (.j 0x3FFFF3C#26) ∧ encode (.j 0x3FFFF3C#26) = 0x0BFFFF3C#32 := by decide
theorem test_decode_jal : 0b000011#6 ++ 0b00000000000000000000001000#26 = 0x0C000008#32 ∧
    decode 0x0C000008#32 = .ok (.jal 0x0000008#26) ∧ encode (.jal 0x0000008#26) = 0x0C000008#32 := by decide
theorem test_decode_lw : 0b100011#6 ++ 0b01000#5 ++ 0b10011#5 ++ 0b0000000000111111#16 = 0x8D13003F#32 ∧
    decode 0x8D13003F#32 = .ok (.lw 19 8 0x003F#16) ∧ encode (.lw 19 8 0x003F#16) = 0x8D13003F#32 := by decide
theorem test_decode_nop : 0b010101#6 ++ 0b00000000000000000000000000#26 = 0x54000000#32 ∧
    decode 0x54000000#32 = .ok .nop ∧ encode .nop = 0x54000000#32 := by decide
theorem test_decode_or : 0b000000#6 ++ 0b00011#5 ++ 0b00100#5 ++ 0b00101#5 ++ 0b00000100101#11 = 0x00642825#32 ∧
    decode 0x00642825#32 = .ok (.or 5 3 4) ∧ encode (.or 5 3 4) = 0x00642825#32 := by decide
theorem test_decode_ori : 0b001101#6 ++ 0b00011#5 ++ 0b00101#5 ++ 0b0000000101010110#16 = 0x34650156#32 ∧
    decode 0x34650156#32 = .ok (.ori 5 3 0x0156#16) ∧ encode (.ori 5 3 0x0156#16) = 0x34650156#32 := by decide
theorem test_decode_sge : 0b000000#6 ++ 0b00010#5 ++ 0b01010#5 ++ 0b00001#5 ++ 0b00000101101#11 = 0x004A082D#32 ∧
    decode 0x004A082D#32 = .ok (.sge 1 2 10) ∧ encode (.sge 1 2 10) = 0x004A082D#32 := by decide
theorem test_decode_sgei : 0b011101#6 ++ 0b10100#5 ++ 0b01001#5 ++ 0b0000000000000110#16 = 0x76890006#32 ∧
    decode 0x76890006#32 = .ok (.sgei 9 20 0x0006#16) ∧ encode (.sgei 9 20 0x0006#16) = 0x76890006#32 := by decide
theorem test_decode_sle : 0b000000#6 ++ 0b00010#5 ++ 0b00100#5 ++ 0b01101#5 ++ 0b00000101100#11 = 0x0044682C#32 ∧
    decode 0x0044682C#32 = .ok (.sle 13 2 4) ∧ encode (.sle 13 2 4) = 0x0044682C#32 := by decide
theorem test_decode_slei : 0b011100#6 ++ 0b00011#5 ++ 0b00001#5 ++ 0b1111111111111100#16 = 0x7061FFFC#32 ∧
    decode 0x7061FFFC#32 = .ok (.slei 1 3 0xFFFC#16) ∧ encode (.slei 1 3 0xFFFC#16) = 0x7061FFFC#32 := by decide
theorem test_decode_sll : 0b000000#6 ++ 0b00010#5 ++ 0b00011#5 ++ 0b00001#5 ++ 0b00000000100#11 = 0x00430804#32 ∧
    decode 0x00430804#32 = .ok (.sll 1 2 3) ∧ encode (.sll 1 2 3) = 0x00430804#32 := by decide
theorem test_decode_slli : 0b010100#6 ++ 0b00001#5 ++ 0b00100#5 ++ 0b0000000000000101#16 = 0x50240005#32 ∧
    decode 0x50240005#32 = .ok (.slli 4 1 0x0005#16) ∧ encode (.slli 4 1 0x0005#16) = 0x50240005#32 := by decide
theorem test_decode_sne : 0b000000#6 ++ 0b00010#5 ++ 0b00011#5 ++ 0b00001#5 ++ 0b00000101001#11 = 0x00430829#32 ∧
    decode 0x00430829#32 = .ok (.sne 1 2 3) ∧ encode (.sne 1 2 3) = 0x00430829#32 := by decide
theorem test_decode_snei : 0b011001#6 ++ 0b00101#5 ++ 0b00011#5 ++ 0b0000000000000100#16 = 0x64A30004#32 ∧
    decode 0x64A30004#32 = .ok (.snei 3 5 0x0004#16) ∧ encode (.snei 3 5 0x0004#16) = 0x64A30004#32 := by decide
theorem test_decode_srl : 0b000000#6 ++ 0b00111#5 ++ 0b01000#5 ++ 0b00101#5 ++ 0b00000000110#11 = 0x00E82806#32 ∧
    decode 0x00E82806#32 = .ok (.srl 5 7 8) ∧ encode (.srl 5 7 8) = 0x00E82806#32 := by decide
theorem test_decode_srli : 0b010110#6 ++ 0b00101#5 ++ 0b00111#5 ++ 0b0000000000000010#16 = 0x58A70002#32 ∧
    decode 0x58A70002#32 = .ok (.srli 7 5 0x0002#16) ∧ encode (.srli 7 5 0x0002#16) = 0x58A70002#32 := by decide
theorem test_decode_sub : 0b000000#6 ++ 0b01100#5 ++ 0b01111#5 ++ 0b00110#5 ++ 0b00000100010#11 = 0x018F3022#32 ∧
    decode 0x018F3022#32 = .ok (.sub 6 12 15) ∧ encode (.sub 6 12 15) = 0x018F3022#32 := by decide
theorem test_decode_subi : 0b001010#6 ++ 0b01001#5 ++ 0b00111#5 ++ 0b1111111111100010#16 = 0x2927FFE2#32 ∧
    decode 0x2927FFE2#32 = .ok (.subi 7 9 0xFFE2#16) ∧ encode (.subi 7 9 0xFFE2#16) = 0x2927FFE2#32 := by decide
theorem test_decode_sw : 0b101011#6 ++ 0b00000#5 ++ 0b00001#5 ++ 0b0000000000000001#16 = 0xAC010001#32 ∧
    decode 0xAC010001#32 = .ok (.sw 0 1 0x0001#16) ∧ encode (.sw 0 1 0x0001#16) = 0xAC010001#32 := by decide
theorem test_decode_xor : 0b000000#6 ++ 0b01100#5 ++ 0b01111#5 ++ 0b00110#5 ++ 0b00000100110#11 = 0x018F3026#32 ∧
    decode 0x018F3026#32 = .ok (.xor 6 12 15) ∧ encode (.xor 6 12 15) = 0x018F3026#32 := by decide
theorem test_decode_xori : 0b001110#6 ++ 0b01100#5 ++ 0b00110#5 ++ 0b0000000000000001#16 = 0x39860001#32 ∧
    decode 0x39860001#32 = .ok (.xori 6 12 0x0001#16) ∧ encode (.xori 6 12 0x0001#16) = 0x39860001#32 := by decide

/-! ### Reserved words (TV 2.5, R78, R79) -/

theorem test_reserved_nopTail :
    decode 0x54000001#32 = .error (.nopTail 1#26) ∧ decode 0x57FFFFFF#32 = .error (.nopTail 0x3FFFFFF#26) := by decide
theorem test_reserved_func : decode 0x00000000#32 = .error (.func 0#11) ∧ decode 0x00221821#32 = .error (.func 0x021#11) ∧
    decode 0x00221C20#32 = .error (.func 0x420#11) := by decide
theorem test_reserved_op : decode 0x04000000#32 = .error (.op 0x01#6) ∧ decode 0x24220001#32 = .error (.op 0x09#6) ∧
    decode 0x3C010001#32 = .error (.op 0x0f#6) ∧ decode 0x48000000#32 = .error (.op 0x12#6) ∧
    decode 0x80220000#32 = .error (.op 0x20#6) ∧ decode 0xA0220000#32 = .error (.op 0x28#6) ∧
    decode 0xFFFFFFFF#32 = .error (.op 0x3f#6) := by decide
/-- R78 (c), (d): ignored fields are ignored. -/
theorem test_ignored_fields : decode 0x103F0008#32 = .ok (.beqz 1 31#5 8#16) ∧
    decode 0x5822FFE1#32 = .ok (.srli 2 1 0xFFE1#16) := by decide
theorem test_truncated : decodeBytes .big [0x54#8, 0x00#8, 0x00#8] = .error (.truncated 3) := by decide
theorem test_decodeBytes_both_orders :
    decodeBytes .big [0x54#8, 0x00#8, 0x00#8, 0x00#8, 0xAA#8] = .ok (.nop, [0xAA#8]) ∧
    decodeBytes .little [0x00#8, 0x00#8, 0x00#8, 0x54#8] = .ok (.nop, []) := by decide
/-- A row of the table numbers bit 31 of the one word as bit 31. -/
theorem test_decodeTableWord : decodeTableWord 32 0x028A4820 = some (.add 9 20 10) ∧
    decodeTableWord 32 0x04000000 = none := by decide

/-! ### Registers, conditions and operands -/

theorem test_register_zero : (testOne 0x100#32 0#32 [(0, 5#32), (31, 6#32)] []).reg 0 = 0#32 ∧
    (testOne 0x100#32 0#32 [(0, 5#32), (31, 6#32)] []).reg 31 = 6#32 := by decide
theorem test_extensions : sext16 0x8000#16 = 0xFFFF8000#32 ∧ zext16 0x8000#16 = 0x00008000#32 ∧
    sext26 0x2000000#26 = 0xFE000000#32 := by decide
theorem test_shift_amounts : shamtOfWord 0xFFFFFFE0#32 = 0 ∧ shamtOfWord 33#32 = 1 ∧ shamtOfImm 0x0020#16 = 0 ∧
    shamtOfImm 0xFFFF#16 = 31 := by decide

/-! ### One step of each instruction (TV 2.1 to 2.5): `pc` and the register written -/

theorem test_step_add : pcAndReg (step (testOne 0x100#32 0x00221820#32 [(1, 0xFFFFFFFF#32), (2, 0x00000001#32)] [])) 3 =
    some (0x104#32, 0x00000000#32) := by decide
theorem test_step_and : pcAndReg (step (testOne 0x100#32 0x00221824#32 [(1, 0xFF00FF00#32), (2, 0x0FF00FF0#32)] [])) 3 =
    some (0x104#32, 0x0F000F00#32) := by decide
theorem test_step_or : pcAndReg (step (testOne 0x100#32 0x00221825#32 [(1, 0xFF00FF00#32), (2, 0x0FF00FF0#32)] [])) 3 =
    some (0x104#32, 0xFFF0FFF0#32) := by decide
theorem test_step_sge : pcAndReg (step (testOne 0x100#32 0x0022182D#32 [(1, 0xFFFFFFFF#32), (2, 0x00000001#32)] [])) 3 =
    some (0x104#32, 0x00000000#32) := by decide
theorem test_step_sge_again : pcAndReg (step (testOne 0x100#32 0x0022182D#32 [(1, 0x80000000#32), (2, 0x80000000#32)] [])) 3 =
    some (0x104#32, 0x00000001#32) := by decide
theorem test_step_sle : pcAndReg (step (testOne 0x100#32 0x0022182C#32 [(1, 0xFFFFFFFF#32), (2, 0x00000001#32)] [])) 3 =
    some (0x104#32, 0x00000001#32) := by decide
theorem test_step_sle_again : pcAndReg (step (testOne 0x100#32 0x0022182C#32 [(1, 0x7FFFFFFF#32), (2, 0x80000000#32)] [])) 3 =
    some (0x104#32, 0x00000000#32) := by decide
theorem test_step_sll : pcAndReg (step (testOne 0x100#32 0x00221804#32 [(1, 0xFFFFFFFF#32), (2, 0xFFFFFFFF#32)] [])) 3 =
    some (0x104#32, 0x80000000#32) := by decide
theorem test_step_sll_again : pcAndReg (step (testOne 0x100#32 0x00221804#32 [(1, 0x00000003#32), (2, 0x00000021#32)] [])) 3 =
    some (0x104#32, 0x00000006#32) := by decide
theorem test_step_sne : pcAndReg (step (testOne 0x100#32 0x00221829#32 [(1, 0x00000000#32), (2, 0x80000000#32)] [])) 3 =
    some (0x104#32, 0x00000001#32) := by decide
theorem test_step_sne_again : pcAndReg (step (testOne 0x100#32 0x00221829#32 [(1, 0xFFFFFFFF#32), (2, 0xFFFFFFFF#32)] [])) 3 =
    some (0x104#32, 0x00000000#32) := by decide
theorem test_step_srl : pcAndReg (step (testOne 0x100#32 0x00221806#32 [(1, 0x80000000#32), (2, 0x00000020#32)] [])) 3 =
    some (0x104#32, 0x80000000#32) := by decide
theorem test_step_srl_again : pcAndReg (step (testOne 0x100#32 0x00221806#32 [(1, 0xF0F00000#32), (2, 0x00000024#32)] [])) 3 =
    some (0x104#32, 0x0F0F0000#32) := by decide
theorem test_step_sub : pcAndReg (step (testOne 0x100#32 0x00221822#32 [(1, 0x00000000#32), (2, 0x00000001#32)] [])) 3 =
    some (0x104#32, 0xFFFFFFFF#32) := by decide
theorem test_step_xor : pcAndReg (step (testOne 0x100#32 0x00221826#32 [(1, 0xFF00FF00#32), (2, 0x0FF00FF0#32)] [])) 3 =
    some (0x104#32, 0xF0F0F0F0#32) := by decide
theorem test_step_addi : pcAndReg (step (testOne 0x100#32 0x2022FFFB#32 [(1, 0x00000003#32)] [])) 2 =
    some (0x104#32, 0xFFFFFFFE#32) := by decide
theorem test_step_addi_again : pcAndReg (step (testOne 0x100#32 0x20228000#32 [(1, 0x00000000#32)] [])) 2 =
    some (0x104#32, 0xFFFF8000#32) := by decide
theorem test_step_andi : pcAndReg (step (testOne 0x100#32 0x3022FF00#32 [(1, 0x12345678#32)] [])) 2 =
    some (0x104#32, 0x00005600#32) := by decide
theorem test_step_andi_again : pcAndReg (step (testOne 0x100#32 0x3022FFFF#32 [(1, 0xFFFFFFFF#32)] [])) 2 =
    some (0x104#32, 0x0000FFFF#32) := by decide
theorem test_step_ori : pcAndReg (step (testOne 0x100#32 0x3422F0F0#32 [(1, 0x00000000#32)] [])) 2 =
    some (0x104#32, 0x0000F0F0#32) := by decide
theorem test_step_ori_again : pcAndReg (step (testOne 0x100#32 0x34220156#32 [(1, 0x80000000#32)] [])) 2 =
    some (0x104#32, 0x80000156#32) := by decide
theorem test_step_sgei : pcAndReg (step (testOne 0x100#32 0x74220006#32 [(1, 0xFFFFFFFF#32)] [])) 2 =
    some (0x104#32, 0x00000000#32) := by decide
theorem test_step_sgei_again : pcAndReg (step (testOne 0x100#32 0x7422FFFF#32 [(1, 0x00000000#32)] [])) 2 =
    some (0x104#32, 0x00000001#32) := by decide
theorem test_step_slei : pcAndReg (step (testOne 0x100#32 0x7022FFFC#32 [(1, 0xFFFFFFFD#32)] [])) 2 =
    some (0x104#32, 0x00000000#32) := by decide
theorem test_step_slei_again : pcAndReg (step (testOne 0x100#32 0x70228000#32 [(1, 0x80000000#32)] [])) 2 =
    some (0x104#32, 0x00000001#32) := by decide
theorem test_step_slli : pcAndReg (step (testOne 0x100#32 0x50220020#32 [(1, 0x00000001#32)] [])) 2 =
    some (0x104#32, 0x00000001#32) := by decide
theorem test_step_slli_again : pcAndReg (step (testOne 0x100#32 0x50220005#32 [(1, 0x08000001#32)] [])) 2 =
    some (0x104#32, 0x00000020#32) := by decide
theorem test_step_snei : pcAndReg (step (testOne 0x100#32 0x6422FFFF#32 [(1, 0xFFFFFFFF#32)] [])) 2 =
    some (0x104#32, 0x00000000#32) := by decide
theorem test_step_snei_again : pcAndReg (step (testOne 0x100#32 0x6422FFFF#32 [(1, 0x0000FFFF#32)] [])) 2 =
    some (0x104#32, 0x00000001#32) := by decide
theorem test_step_srli : pcAndReg (step (testOne 0x100#32 0x5822FFE1#32 [(1, 0x80000000#32)] [])) 2 =
    some (0x104#32, 0x40000000#32) := by decide
theorem test_step_srli_again : pcAndReg (step (testOne 0x100#32 0x58220002#32 [(1, 0x80000004#32)] [])) 2 =
    some (0x104#32, 0x20000001#32) := by decide
theorem test_step_subi : pcAndReg (step (testOne 0x100#32 0x2822FFE2#32 [(1, 0x00000000#32)] [])) 2 =
    some (0x104#32, 0x0000001E#32) := by decide
theorem test_step_subi_again : pcAndReg (step (testOne 0x100#32 0x28220001#32 [(1, 0x80000000#32)] [])) 2 =
    some (0x104#32, 0x7FFFFFFF#32) := by decide
theorem test_step_xori : pcAndReg (step (testOne 0x100#32 0x3822FFFF#32 [(1, 0xFFFFFFFF#32)] [])) 2 =
    some (0x104#32, 0xFFFF0000#32) := by decide
theorem test_step_xori_again : pcAndReg (step (testOne 0x100#32 0x38220001#32 [(1, 0xFFFFFFFF#32)] [])) 2 =
    some (0x104#32, 0xFFFFFFFE#32) := by decide
/-- Source and destination the same register, and register 0 as destination. -/
theorem test_step_add_same : pcAndReg (step (testOne 0x100#32 0x00210820#32 [(1, 0x40000001#32)] [])) 1 =
    some (0x104#32, 0x80000002#32) ∧
    step (testOne 0x100#32 0x00220020#32 [(1, 1#32), (2, 2#32)] []) =
      .next { testOne 0x100#32 0x00220020#32 [(1, 1#32), (2, 2#32)] [] with pc := 0x104#32 } := ⟨by decide, rfl⟩
theorem test_step_sub_same : pcAndReg (step (testOne 0x100#32 0x00210822#32 [(1, 0x12345678#32)] [])) 1 =
    some (0x104#32, 0#32) := by decide
theorem test_step_lw : pcAndReg (step (testOne 0x10#32 0x8D13003F#32 [(8, 0x1C1#32)] [(0x200, 0xDEADBEEF#32)])) 19 =
    some (0x14#32, 0xDEADBEEF#32) := by decide
theorem test_step_lw_same : pcAndReg (step (testOne 0x10#32 0x8C210000#32 [(1, 0x300#32)] [(0x300, 0x304#32)])) 1 =
    some (0x14#32, 0x304#32) := by decide
theorem test_step_sw : pcAndWord (step (testOne 0x10#32 0xADA60015#32 [(13, 0x2EB#32), (6, 0xCAFE0001#32)] [])) 0x300 =
    some (0x14#32, 0xCAFE0001#32) := by decide
/-- A stored zero leaves no cell behind. -/
theorem test_step_sw_zero : (nextOf (step (testOne 0x10#32 0xAC200000#32 [(1, 0x400#32)] [(0x400, 7#32)]))).map State.mem =
    some [] := by decide
theorem test_step_beqz : pcAndReg (step (testOne 0x100#32 0x1020FFFC#32 [] [])) 1 = some (0x100#32, 0#32) ∧
    pcAndReg (step (testOne 0x100#32 0x1020FF00#32 [(1, 0x80000000#32)] [])) 1 = some (0x104#32, 0x80000000#32) := by decide
theorem test_step_beqz_wraps : pcAndReg (step (testOne 0#32 0x1020FFF8#32 [] [])) 1 = some (0xFFFFFFFC#32, 0#32) := by decide
theorem test_step_bnez : pcAndReg (step (testOne 0x100#32 0x1420FF00#32 [(1, 0x80000000#32)] [])) 1 =
    some (0x4#32, 0x80000000#32) ∧
    pcAndReg (step (testOne 0x100#32 0x14200008#32 [] [])) 1 = some (0x104#32, 0#32) := by decide
theorem test_step_bnez_wraps : pcAndReg (step (testOne 0xFFFFFFFC#32 0x14200000#32 [(1, 1#32)] [])) 1 =
    some (0#32, 1#32) := by decide
theorem test_step_j : pcAndReg (step (testOne 0x100#32 0x0BFFFF3C#32 [(31, 7#32)] [])) 31 = some (0x40#32, 7#32) := by decide
theorem test_step_j_far : pcAndReg (step (testOne 0x04000000#32 0x0A000000#32 [(31, 7#32)] [])) 31 =
    some (0x02000004#32, 7#32) := by decide
theorem test_step_jal : pcAndReg (step (testOne 0x8#32 0x0C000008#32 [] [])) 31 = some (0x14#32, 0xC#32) := by decide
theorem test_step_jal_wraps : pcAndReg (step (testOne 0xFFFFFFFC#32 0x0C000000#32 [(31, 7#32)] [])) 31 =
    some (0#32, 0#32) := by decide
theorem test_step_nop : step (testOne 0x100#32 0x54000000#32 [(1, 1#32)] []) =
    .next { testOne 0x100#32 0x54000000#32 [(1, 1#32)] [] with pc := 0x104#32 } := rfl

/-! ### Faults and the end of a run (TV 2.3 to 2.5, 3) -/

theorem test_fault_misalignedAccess :
    faultOf (step (testOne 0x10#32 0x8D13003F#32 [(8, 0x1C0#32)] [])) = some (.misalignedAccess 0x1FF#32) ∧
    faultOf (step (testOne 0x10#32 0xAC220002#32 [(1, 0x1001#32)] [])) = some (.misalignedAccess 0x1003#32) := by decide
theorem test_fault_textAccess :
    faultOf (step (testOne 0x4#32 0x8C220008#32 [(1, 0xFFFFFFFC#32)] [])) = some (.textAccess 0x4#32) ∧
    faultOf (step (testOne 0x40#32 0xAC220000#32 [(1, 0x40#32)] [])) = some (.textAccess 0x40#32) := by decide
theorem test_fault_unmappedAccess :
    faultOf (step (testOne 0x10#32 0x8C200000#32 [(1, 0x2000#32)] [])) = some (.unmappedAccess 0x2000#32) := by decide
theorem test_fault_misalignedFetch :
    faultOf (step (testOne 0x10A#32 0x54000000#32 [] [])) = some (.misalignedFetch 0x10A#32) := by decide
theorem test_fault_unmappedFetch :
    faultOf (step (testState 0x8#32 [(0, 0x08000004#32)] [] [])) = some (.unmappedFetch 0x8#32) := by decide
theorem test_fault_illegalInstruction :
    faultOf (step (testOne 0#32 0x00000000#32 [] [])) = some (.illegalInstruction 0#32 0#32) := by decide
/-- With the guard off the wrapped load of TV 2.3 reads data memory. -/
theorem test_guard_off :
    (let s := testOne 0x4#32 0x8C220008#32 [(1, 0xFFFFFFFC#32)] [(4, 9#32)]
     pcAndReg (step { s with params := { s.params with textGuard := false, mapped := [{ first := 4, last := 4 }] } }) 2) =
      some (0x8#32, 9#32) := by decide
theorem test_end : (nextOf (step (testState 0x4#32 [(0, 0x54000000#32)] [] []))).map State.status = some .ended ∧
    refusalOf (step (testState 0x4#32 [(0, 0x54000000#32)] [] []).ended) = some .runEnded := by decide
/-- From reset with nothing placed the first step has nothing to fetch (log 8). -/
theorem test_reset_first_step : faultOf (step State.reset) = some (.unmappedFetch 0#32) := by decide
theorem test_reset_places_and_runs : pcAndReg (step (State.reset.withFetchWord 32 0x2002FFFB)) 2 =
    some (0x4#32, 0xFFFFFFFB#32) := by decide

/-! ### Memory in both byte orders -/

theorem test_bytes_big : Memory.writeWord .big [] 0x100 0x11220044#32 = [(0x100, 0x11#8), (0x101, 0x22#8), (0x103, 0x44#8)] := by
  decide
theorem test_bytes_little : Memory.writeWord .little [] 0x100 0x11223344#32 =
    [(0x100, 0x44#8), (0x101, 0x33#8), (0x102, 0x22#8), (0x103, 0x11#8)] := by decide
theorem test_memory_ill_formed : ¬ Memory.wf [(1, 1#8), (0, 1#8)] ∧ ¬ Memory.wf [(0, 0#8)] ∧ ¬ Memory.wf [(2 ^ 32, 1#8)] := by
  decide
theorem test_text_ill_formed : textWf (testText [(0, 0x54000000#32)]) ∧ ¬ textWf [(0, 0x54#8)] := by decide

/-! ### Assembler: the source's "Ex:" lines and their words (TV 1.2) -/

/-- The word of a line at address 0. -/
def wordOfLine (m : Mnemonic) (ops : List AsmOperand) : Option Word := (assemble 0#32 ⟨m, ops⟩).map encode

theorem test_assemble_registers : wordOfLine .add [.reg 1, .reg 2, .reg 3] = some 0x00430820#32 ∧
    wordOfLine .and [.reg 2, .reg 3, .reg 4] = some 0x00641024#32 ∧ wordOfLine .or [.reg 2, .reg 3, .reg 4] = some 0x00641025#32 ∧
    wordOfLine .sge [.reg 1, .reg 3, .reg 4] = some 0x0064082D#32 ∧ wordOfLine .sle [.reg 1, .reg 2, .reg 3] = some 0x0043082C#32 ∧
    wordOfLine .sll [.reg 6, .reg 7, .reg 11] = some 0x00EB3004#32 ∧ wordOfLine .sne [.reg 1, .reg 2, .reg 3] = some 0x00430829#32 ∧
    wordOfLine .srl [.reg 15, .reg 2, .reg 3] = some 0x00437806#32 ∧ wordOfLine .sub [.reg 3, .reg 2, .reg 1] = some 0x00411822#32 ∧
    wordOfLine .xor [.reg 2, .reg 3, .reg 4] = some 0x00641026#32 := by decide
theorem test_assemble_immediates : wordOfLine .addi [.reg 5, .reg 2, .imm 5] = some 0x20450005#32 ∧
    wordOfLine .andi [.reg 3, .reg 4, .imm 5] = some 0x30830005#32 ∧ wordOfLine .ori [.reg 3, .reg 4, .imm 5] = some 0x34830005#32 ∧
    wordOfLine .sgei [.reg 2, .reg 1, .imm 6] = some 0x74220006#32 ∧
    wordOfLine .slei [.reg 8, .reg 5, .imm 345] = some 0x70A80159#32 ∧
    wordOfLine .snei [.reg 4, .reg 5, .imm 89] = some 0x64A40059#32 ∧ wordOfLine .srli [.reg 1, .reg 2, .imm 5] = some 0x58410005#32 ∧
    wordOfLine .subi [.reg 15, .reg 16, .imm 964] = some 0x2A0F03C4#32 ∧
    wordOfLine .xori [.reg 3, .reg 4, .imm 5] = some 0x38830005#32 := by decide
theorem test_assemble_memory : wordOfLine .sw [.mem none 21 13, .reg 6] = some 0xADA60015#32 ∧
    wordOfLine .lw [.reg 19, .mem none 63 8] = some 0x8D13003F#32 ∧
    wordOfLine .lw [.reg 19, .mem (some 0x100#32) 63 8] = some 0x8D13013F#32 := by decide
/-- The source's branch examples at their rows' addresses (TV 1.3): targets 2 and -6. -/
theorem test_assemble_branches : (assemble 0x10#32 ⟨.beqz, [.reg 0, .label 2#32]⟩).map encode = some 0x1000FFEE#32 ∧
    (assemble 0x14#32 ⟨.bnez, [.reg 2, .label 0xFFFFFFFA#32]⟩).map encode = some 0x1440FFE2#32 := by decide
theorem test_assemble_out_of_range : wordOfLine .addi [.reg 1, .reg 2, .imm 32768] = none ∧
    wordOfLine .andi [.reg 1, .reg 2, .imm (-1)] = none ∧ wordOfLine .slli [.reg 1, .reg 2, .imm 32] = none ∧
    wordOfLine .beqz [.reg 1, .label 0x8004#32] = none ∧ wordOfLine .j [.label 0x02000004#32] = none := by decide
theorem test_line_text : lineText (fun _ => "l1") ⟨.addi, [.reg 1, .reg 2, .imm (-5)]⟩ = "addi r1,r2,#-5" ∧
    lineText (fun _ => "l1") ⟨.sw, [.mem none 1 0, .reg 1]⟩ = "sw 1(r0),r1" ∧
    lineText (fun _ => "l1") ⟨.j, [.label 0#32]⟩ = "j l1" ∧ lineText (fun _ => "l1") ⟨.nop, []⟩ = "nop" := by decide

/-! ### Witnesses: for every statement with hypotheses, states and operands that meet them, at the values where clauses meet -/

/-- Text 0x00 to 0x0F (an `lw`, an `sw`, a `nop`, a reserved word), data mapped at 0x100 to 0xFFC. -/
def wit (a : Word) : State :=
  testState a [(0, 0x8C220000#32), (4, 0xAC220004#32), (8, 0x54000000#32), (12, 0x00000000#32)]
    [(1, 0x100#32), (2, 0xFFFFFFFF#32), (3, 0x7FFFFFFF#32), (4, 0xFFC#32), (5, 0x1000#32), (6, 0xC#32), (7, 0x80000000#32)]
    [(0x100, 0x01020304#32)]

/-- The same with the text guard off. -/
def witNoGuard (a : Word) : State := { wit a with params := { (wit a).params with textGuard := false } }

theorem witness_EncodeOfDecodeIsIdentity : decode 0x5822FFE1#32 = .ok (.srli 2 1 0xFFE1#16) := by decide

theorem witness_DecodeMatchesOpcodeRows :
    (⟨.add, 0xFC0007FF#32, 0x00000020#32⟩ : Row) ∈ opcodeRows ∧ 0x028A4820#32 &&& 0xFC0007FF#32 = 0x00000020#32 ∧
    (∀ row ∈ opcodeRows, 0x54000001#32 &&& row.mask ≠ row.bits) := by decide

/-- The field readings of the encoding clauses of the R, I and J formats. -/
theorem witness_formats : RTypeWord 0x028A4820#32 0x00000020#32 9 20 10 ∧
    ITypeWord 0x2041FFFB#32 0x20000000#32 2 1 0xFFFB#16 ∧ JTypeWord 0x0BFFFF3C#32 0x08000000#32 0x3FFFF3C#26 := by
  unfold RTypeWord ITypeWord JTypeWord slice; decide

/-- `EA` = 0xFFD, 0xC in the text, 0x1000 just past the map, 0xFFC its last word; and 0xC with the guard off. -/
theorem witness_LwLoadsTheAddressedWord :
    wrap (((wit 0#32).reg 4).toNat + fieldVal 1#16) = 0xFFD#32 ∧
    (wrap (((wit 0#32).reg 6).toNat + fieldVal 0#16) = 0xC#32 ∧ inText (wit 0#32).params 0xC#32 = true ∧
      (wit 0#32).params.textGuard = true) ∧
    (wrap (((wit 0#32).reg 4).toNat + fieldVal 4#16) = 0x1000#32 ∧ inText (wit 0#32).params 0x1000#32 = false ∧
      mappedAt (wit 0#32).params 0x1000#32 = false) ∧
    (wrap (((wit 0#32).reg 5).toNat + fieldVal 0xFFFC#16) = 0xFFC#32 ∧ inText (wit 0#32).params 0xFFC#32 = false ∧
      mappedAt (wit 0#32).params 0xFFC#32 = true) ∧
    (inText (wit 0#32).params 0x10#32 = false ∧ (witNoGuard 0#32).params.textGuard = false) := by decide

theorem witness_SwStoresTheAddressedWord :
    effAddr (wit 0#32) 4 1#16 = 0xFFD#32 ∧
    (effAddr (wit 0#32) 6 0#16 = 0xC#32 ∧ inText (wit 0#32).params 0xC#32 = true ∧ (wit 0#32).params.textGuard = true) ∧
    (effAddr (wit 0#32) 6 0xF0#16 = 0xFC#32 ∧ inText (wit 0#32).params 0xFC#32 = false ∧
      mappedAt (wit 0#32).params 0xFC#32 = false) ∧
    (effAddr (wit 0#32) 1 0#16 = 0x100#32 ∧ inText (wit 0#32).params 0x100#32 = false ∧
      mappedAt (wit 0#32).params 0x100#32 = true) := by decide

theorem witness_MemReadChecksThenReads :
    (0x101#32).toNat % 4 ≠ 0 ∧
    ((wit 0#32).params.textGuard = true ∧ textAt (wit 0#32).params 0xC#32 = some 0#32) ∧
    (textAt (wit 0#32).params 0x10#32 = none ∧
      ∀ r ∈ (wit 0#32).params.mapped, ¬ (r.first ≤ (0x10#32).toNat ∧ (0x10#32).toNat ≤ r.last)) ∧
    (textAt (wit 0#32).params 0xFFC#32 = none ∧
      ∃ r ∈ (wit 0#32).params.mapped, r.first ≤ (0xFFC#32).toNat ∧ (0xFFC#32).toNat ≤ r.last) ∧
    ((witNoGuard 0#32).params.textGuard = false ∧
      ∀ r ∈ (witNoGuard 0#32).params.mapped, ¬ (r.first ≤ (0xC#32).toNat ∧ (0xC#32).toNat ≤ r.last)) := by decide

theorem witness_MemWriteChecksThenWritesOneWord :
    memRead (wit 0#32) 0xC#32 = .error (.textAccess 0xC#32) ∧ memRead (wit 0#32) 0x100#32 = .ok 0x01020304#32 ∧
    (0x104#32).toNat % 4 = 0 ∧ 0x104#32 ≠ 0x100#32 := by decide

theorem witness_StoreIsSeenByTheNextLoad : (∃ t, exec (.sw 1 2 4#16) (wit 4#32) = .next t) ∧
    effAddr (wit 4#32) 1 4#16 = 0x104#32 ∧ memRead (wit 4#32) 0x100#32 = .ok 0x01020304#32 := ⟨⟨_, rfl⟩, by decide, by decide⟩

theorem witness_EqualMemoriesAreEqualData : (wit 0#32).mem.wf ∧ Memory.wf [(0x100, 1#8), (0x101, 2#8), (0x102, 3#8), (0x103, 4#8)] ∧
    ∀ a, (wit 0#32).mem.readByte a = Memory.readByte [(0x100, 1#8), (0x101, 2#8), (0x102, 3#8), (0x103, 4#8)] a :=
  ⟨by decide, by decide, fun _ => rfl⟩

theorem witness_NopOnlyAdvances : slice 0x54000001#32 31 26 = 0x15 ∧ slice 0x54000001#32 25 0 ≠ 0 := by
  unfold slice; decide

/-- Three transfers of one running machine: to a misaligned address, to one past `END_PC`, and to `END_PC`. -/
theorem witness_BadTargetFaultsAtTheNextStep :
    transfersControl (.j 2#26) = true ∧ (wit 0x100#32).status = .running ∧ paramsWf (wit 0x100#32).params ∧
    (nextOf (exec (.j 2#26) (wit 0x100#32))).map State.pc = some 0x106#32 ∧
    ((nextOf (exec (.jal 0#26) (wit 0x100#32))).map State.pc = some 0x104#32 ∧
      textAt (wit 0x100#32).params 0x104#32 = none) ∧
    ((nextOf (exec (.beqz 0 0#5 0xFF0C#16) (wit 0x100#32))).map State.pc = some 0x10#32 ∧
      endAddr (wit 0x100#32).params = some 0x10#32) := by decide

theorem witness_RegisterZeroIsHardWired : (31 : RegNum) ≠ 0 ∧ (1 : RegNum) ≠ 0 := by decide

/-- `add` with a source for destination, `sw` with none; and two states that differ in a register `add r1,r1,r2` does not read. -/
theorem witness_NoRegisterOutsideTheTable :
    ((∃ t, exec (.add 1 1 2) (wit 0#32) = .next t) ∧ regWrites (.add 1 1 2) ≠ some 2) ∧
    ((∃ t, exec (.sw 1 2 0#16) (wit 0#32) = .next t) ∧ regWrites (.sw 1 2 0#16) ≠ some 2) ∧
    (((wit 0#32).setReg 9 5#32).pc = (wit 0#32).pc ∧ ((wit 0#32).setReg 9 5#32).mem = (wit 0#32).mem ∧
      ((wit 0#32).setReg 9 5#32).params = (wit 0#32).params ∧ ((wit 0#32).setReg 9 5#32).status = (wit 0#32).status ∧
      (∀ q ∈ regReads (.add 1 1 2), ((wit 0#32).setReg 9 5#32).reg q = (wit 0#32).reg q) ∧
      (wit 0#32).setReg 9 5#32 ≠ wit 0#32) := by
  refine ⟨⟨⟨_, rfl⟩, by decide⟩, ⟨⟨_, rfl⟩, by decide⟩, by decide⟩

theorem witness_OnlyTransfersRedirectThePc : (∃ t, exec (.sgei 2 1 6#16) (wit 0#32) = .next t) ∧
    transfersControl (.sgei 2 1 6#16) = false := ⟨⟨_, rfl⟩, by decide⟩

theorem witness_OnlyStoreWritesMemory : ((∃ t, exec (.lw 2 1 0#16) (wit 0#32) = .next t) ∧ Mnemonic.lw ≠ .sw) ∧
    (∃ t, step (wit 4#32) = .next t) := ⟨⟨⟨_, rfl⟩, by decide⟩, ⟨_, rfl⟩⟩

/-- Both destinations, a sum and a difference that overflow (to the words of TV 2.1), and two that do not. -/
theorem witness_SignedOverflowOnlyWraps : (3 : RegNum) ≠ 0 ∧
    wrap (signedVal 0x7FFFFFFF#32 + signedVal 1#32) = 0x80000000#32 ∧
    wrap (signedVal 0x80000000#32 - signedVal 1#32) = 0x7FFFFFFF#32 ∧ addOverflows 0x7FFFFFFF#32 1#32 = true ∧
    addOverflows 0xFFFFFFFF#32 1#32 = false ∧ subOverflows 0x80000000#32 1#32 = true ∧
    subOverflows 0#32 1#32 = false := by decide

/-- `a` = 0xE, 0x10 just past the text, 0xC its last word, and a machine at `END_PC`. -/
theorem witness_FetchChecksThenReadsText : (0xE#32).toNat % 4 ≠ 0 ∧
    ((0x10#32).toNat % 4 = 0 ∧ textAt (wit 0#32).params 0x10#32 = none) ∧
    ((0xC#32).toNat % 4 = 0 ∧ textAt (wit 0#32).params 0xC#32 = some 0#32) ∧
    ((wit 0x10#32).status = .running ∧ endAddr (wit 0x10#32).params = some (wit 0x10#32).pc) := by decide

theorem witness_StepRunsTheDecodedInstruction : (wit 4#32).status = .running ∧ endAddr (wit 4#32).params ≠ some (wit 4#32).pc ∧
    (wit 4#32).pc.toNat % 4 = 0 ∧ textAt (wit 4#32).params (wit 4#32).pc = some 0xAC220004#32 ∧
    decode 0xAC220004#32 = .ok (.sw 1 2 4#16) := by decide

/-- The clauses in their order: at `END_PC`, misaligned, past the text, on a reserved word, on an `sw`. -/
theorem witness_StepChecksInOrder : (wit 0x10#32).status = .running ∧
    endAddr (wit 0x10#32).params = some (wit 0x10#32).pc ∧
    (endAddr (wit 0xE#32).params ≠ some (wit 0xE#32).pc ∧ (wit 0xE#32).pc.toNat % 4 ≠ 0) ∧
    (endAddr (wit 0x14#32).params ≠ some (wit 0x14#32).pc ∧ (wit 0x14#32).pc.toNat % 4 = 0 ∧
      textAt (wit 0x14#32).params (wit 0x14#32).pc = none) ∧
    (textAt (wit 0xC#32).params (wit 0xC#32).pc = some 0#32 ∧ ∀ row ∈ opcodeRows, 0#32 &&& row.mask ≠ row.bits) ∧
    (textAt (wit 4#32).params (wit 4#32).pc = some 0xAC220004#32 ∧
      (⟨.sw, 0xFC000000#32, 0xAC000000#32⟩ : Row) ∈ opcodeRows ∧ 0xAC220004#32 &&& 0xFC000000#32 = 0xAC000000#32) := by decide

theorem witness_FaultsArePreciseAndTerminal : faultOf (step (wit 0xC#32)) = some (.illegalInstruction 0#32 0xC#32) ∧
    step (wit 0xC#32) = .fault (.illegalInstruction 0#32 0xC#32) := ⟨by decide, rfl⟩

theorem witness_InstructionsCompleteOrHaveNoEffect : (Instr.nop.mnemonic ≠ .lw ∧ Instr.nop.mnemonic ≠ .sw) ∧
    exec (.lw 0 5 0#16) (wit 0#32) = .fault (.unmappedAccess 0x1000#32) := ⟨by decide, rfl⟩

theorem witness_EndOfRunIsFinal :
    ((wit 0x10#32).status = .running ∧ endAddr (wit 0x10#32).params = some (wit 0x10#32).pc) ∧
    (wit 0x10#32).ended.status = .ended ∧
    ((wit 0xC#32).raised (.illegalInstruction 0#32 0xC#32)).status = .faulted (.illegalInstruction 0#32 0xC#32) ∧
    (∃ t, step (wit 8#32) = .next t) ∧ (∃ t, step (wit 0x10#32) = .next t) :=
  ⟨by decide, by decide, by decide, ⟨_, rfl⟩, ⟨_, rfl⟩⟩

/-- A given `END_PC`, an empty text, and a text whose last word is at 0xC. -/
theorem witness_OpenEndPcDefaultsPastTheText :
    (paramsWf { Params.default with endPc := some 0xFFFFFFFC#32 } ∧
      ({ Params.default with endPc := some 0xFFFFFFFC#32 } : Params).endPc = some 0xFFFFFFFC#32) ∧
    (paramsWf Params.default ∧ Params.default.endPc = none ∧ Params.default.text = []) ∧
    (paramsWf (wit 0#32).params ∧ (wit 0#32).params.endPc = none ∧ inText (wit 0#32).params 0xC#32 = true ∧
      aligned 0xC#32 = true ∧ endAddr (wit 0#32).params = some 0x10#32) := by decide

/-- A text of one word at the top of the space: no text word lies above it, and `END_PC` is 0 (log 5). -/
theorem witness_OpenEndPcDefaultsPastTheText_top : paramsWf (testParams [(0xFFFFFFFC, 0x54000000#32)]) ∧
    (testParams [(0xFFFFFFFC, 0x54000000#32)]).endPc = none ∧
    inText (testParams [(0xFFFFFFFC, 0x54000000#32)]) 0xFFFFFFFC#32 = true ∧ aligned 0xFFFFFFFC#32 = true ∧
    (∀ b : Word, aligned b = true → b.toNat ≤ (0xFFFFFFFC#32).toNat) ∧
    endAddr (testParams [(0xFFFFFFFC, 0x54000000#32)]) = some 0#32 := by
  refine ⟨by decide, by decide, by decide, by decide, fun b hb => ?_, by decide⟩
  have := (aligned_iff b).1 hb
  have := b.isLt
  show b.toNat ≤ 0xFFFFFFFC
  omega

/-- A text with a gap: the default is the address past its greatest word (log 5). -/
theorem test_endAddr_gap : endAddr (testParams [(0x20, 0x54000000#32), (0, 0x54000000#32)]) = some 0x24#32 := by decide

/-- No text word lies above 0xC. -/
theorem witness_OpenEndPcDefaultsPastTheText_last : ∀ b : Word, inText (wit 0#32).params b = true → aligned b = true →
    b.toNat ≤ (0xC#32).toNat := by
  intro b h _
  unfold inText textAt textWord at h
  have hc : ∀ n : Nat, 16 ≤ n → cellAt (wit 0#32).params.text n = none := by
    intro n hn
    have e : (wit 0#32).params.text = [(0, 0x8C#8), (1, 0x22#8), (2, 0#8), (3, 0#8), (4, 0xAC#8), (5, 0x22#8), (6, 0#8), (7, 4#8),
      (8, 0x54#8), (9, 0#8), (10, 0#8), (11, 0#8), (12, 0#8), (13, 0#8), (14, 0#8), (15, 0#8)] := by decide
    rw [e]
    simp only [cellAt]
    repeat rw [if_neg (by omega)]
  show b.toNat ≤ 12
  by_contra hb
  rw [hc (b.toNat + 3) (by omega)] at h
  simp at h

/-- A launch with a text, registers that are not zero and data in memory. -/
theorem witness_LaunchMeetsTheInvariant : paramsWf (wit 0#32).params ∧ (wit 0#32).mem.wf ∧
    memBacked (wit 0#32).params (wit 0#32).mem ∧ (wit 0#32).mem ≠ [] := by decide

theorem wit_inv (a : Word) : Inv (wit a) :=
  ⟨show paramsWf (wit 0#32).params by decide, show (wit 0#32).mem.wf by decide,
    show memBacked (wit 0#32).params (wit 0#32).mem by decide, trivial⟩

/-- A step that stores, and the step that ends a run. -/
theorem witness_StepKeepsTheInvariant : (Inv (wit 4#32) ∧ ∃ t, step (wit 4#32) = .next t) ∧
    (Inv (wit 0x10#32) ∧ ∃ t, step (wit 0x10#32) = .next t) := ⟨⟨wit_inv _, _, rfl⟩, ⟨wit_inv _, _, rfl⟩⟩

/-- A machine that faults, the same after it has, and two states a step apart. -/
theorem witness_AdvanceKeepsTheInvariant : Inv (wit 0xC#32) ∧ Inv ((wit 0xC#32).raised (.illegalInstruction 0#32 0xC#32)) ∧
    ∃ t, step (wit 4#32) = .next t ∧ Reaches (wit 4#32) t :=
  ⟨wit_inv _, ⟨(wit_inv 0xC#32).params, (wit_inv 0xC#32).mem, (wit_inv 0xC#32).backed, rfl⟩,
    ⟨_, rfl, .step (.here _) rfl⟩⟩

/-- One word of text at 0 and one word of data at 0x100, in a byte order. -/
def witOrder (o : ByteOrder) : State :=
  { wit 0#32 with
    mem := Memory.writeWord o [] 0x100 0x01020304#32
    params := { (wit 0#32).params with byteOrder := o, text := putTextWord o [] 0 0x8C220000#32 } }

/-- The same machine in both byte orders: its bytes differ, its words do not. -/
theorem witness_ByteOrderIsUnobservable : SameWords (witOrder .big) (witOrder .little) ∧
    (witOrder .big).mem ≠ (witOrder .little).mem := by
  refine ⟨⟨rfl, rfl, rfl, rfl, rfl, rfl, by decide, ?_, ?_⟩, by decide⟩
  · intro a ha
    have h0 := (aligned_iff a).1 ha
    by_cases h : a.toNat = 0
    · have : a = 0#32 := BitVec.eq_of_toNat_eq h
      subst this; decide
    · have n : ∀ o, textAt (witOrder o).params a = none := by
        intro o
        show textWord o (putTextWord o [] 0 0x8C220000#32) a.toNat = none
        simp only [textWord, putTextWord, cellAt_putCell, cellAt]
        rw [if_neg (by omega), if_neg (by omega), if_neg (by omega), if_neg (by omega)]
      rw [n, n]
  · intro a ha
    have h0 := (aligned_iff a).1 ha
    have n : ∀ o, (witOrder o).mem.readWord (witOrder o).params.byteOrder a.toNat =
        if a.toNat = 0x100 then 0x01020304#32 else 0#32 := by
      intro o
      show Memory.readWord o (Memory.writeWord o [] 0x100 0x01020304#32) a.toNat = _
      rw [readWord_writeWord _ _ _ _ _ (by decide) h0]
      split
      · rfl
      · cases o <;> simp only [Memory.readWord, Memory.readByte, cellAt] <;> decide
    rw [n, n]

/-- Two machines that differ in the data memory under the text alone. -/
theorem witness_GuardedTextIsNotData :
    (witOrder .big).params.textGuard = true ∧
    SameOutsideText (witOrder .big) { witOrder .big with mem := (0, 1#8) :: (witOrder .big).mem } := by
  refine ⟨rfl, rfl, rfl, rfl, rfl, ?_⟩
  intro a ha hi
  have h0 := (aligned_iff a).1 ha
  have h : a.toNat ≠ 0 := by
    intro h
    have : a = 0#32 := BitVec.eq_of_toNat_eq h
    subst this
    exact absurd hi (by decide)
  simp only [Memory.readWord, Memory.readByte, cellAt]
  rw [if_neg (by omega), if_neg (by omega), if_neg (by omega), if_neg (by omega)]

/-- Placing on a misaligned `pc` of a machine whose run is over, and at the last word of the address space. -/
theorem witness_PlacedInstructionIsTheNextToRun : decodeTableWord 32 0x54000000 = some .nop ∧
    (nextOf (step ((wit 0xE#32).ended.withFetchWord 32 0x54000000))).map State.pc = some 0x10#32 ∧
    (nextOf (step ((wit 0xFFFFFFFF#32).withFetchWord 32 0x54000000))).map State.pc = some 0#32 := by decide

theorem witness_DisassemblyAssemblesBack : (Instr.slli 2 1 31#16).wellFormed = true ∧
    assemble 0x10#32 ⟨.beqz, [.reg 0, .label 2#32]⟩ = some (.beqz 0 0#5 0xFFEE#16) := by decide

/-- Labels at both ends of the range of a branch, and before and after a jump. -/
theorem witness_LabelOperandReachesItsLabel :
    (assemble (wit 0#32).pc ⟨.j, [.label 0x02000003#32]⟩ = some (.j 0x1FFFFFF#26) ∧
      ∃ t, exec (.j 0x1FFFFFF#26) (wit 0#32) = .next t) ∧
    (assemble (wit 0#32).pc ⟨.jal, [.label 0#32]⟩ = some (.jal 0x3FFFFFC#26) ∧
      ∃ t, exec (.jal 0x3FFFFFC#26) (wit 0#32) = .next t) ∧
    (assemble (wit 0#32).pc ⟨.beqz, [.reg 0, .label 0x8003#32]⟩ = some (.beqz 0 0#5 0x7FFF#16) ∧ (wit 0#32).reg 0 = 0#32 ∧
      ∃ t, exec (.beqz 0 0#5 0x7FFF#16) (wit 0#32) = .next t) ∧
    (assemble (wit 0#32).pc ⟨.bnez, [.reg 1, .label 0xFFFF8004#32]⟩ = some (.bnez 1 0#5 0x8000#16) ∧ (wit 0#32).reg 1 ≠ 0#32 ∧
      ∃ t, exec (.bnez 1 0#5 0x8000#16) (wit 0#32) = .next t) :=
  ⟨⟨by decide, _, rfl⟩, ⟨by decide, _, rfl⟩, ⟨by decide, by decide, _, rfl⟩, ⟨by decide, by decide, _, rfl⟩⟩


end Sys2Proof.Tests
end

section
/-! `END_PC` and the words of the text (`70_reset_and_hazards.md` R202, `10_state.md` R30): in a well-formed text the last
listed byte lies in the greatest text word. -/

namespace Sys2Proof.Machine

/-! ### `END_PC` -/

theorem endAddr_of_given {p : Params} {a : Word} (h : p.endPc = some a) : endAddr p = some a := by
  simp [endAddr, h]

theorem endAddr_of_default {p : Params} (h : p.endPc = none) :
    endAddr p = p.text.getLast?.map fun c => BitVec.ofNat 32 (c.1 / 4 * 4 + 4) := by
  simp [endAddr, h]

theorem aligned_of_endPc {p : Params} {a : Word} (hp : endPcAligned p = true) (h : p.endPc = some a) :
    aligned a = true := by
  simpa [endPcAligned, h] using hp

/-- The wrap of the address space keeps alignment: `2^32` is a multiple of 4. -/
theorem aligned_ofNat_iff (n : Nat) : aligned (BitVec.ofNat 32 n) = true ↔ n % 4 = 0 := by
  rw [aligned_iff, BitVec.toNat_ofNat]
  omega

/-- `END_PC` is a multiple of 4 (R202), given or by default. -/
theorem aligned_of_endAddr {p : Params} {a : Word} (hp : endPcAligned p = true) (h : endAddr p = some a) :
    aligned a = true := by
  cases he : p.endPc with
  | some b =>
    obtain rfl : b = a := Option.some.inj ((endAddr_of_given he).symm.trans h)
    exact aligned_of_endPc hp he
  | none =>
    rw [endAddr_of_default he] at h
    obtain ⟨c, -, rfl⟩ := Option.map_eq_some_iff.1 h
    rw [aligned_ofNat_iff]
    omega

/-! ### The words of the text -/

/-- A word stands in a byte map where its four bytes are listed (log 10). -/
theorem textWord_isSome_iff (o : ByteOrder) (t : Memory) (a : Nat) :
    (textWord o t a).isSome = true ↔ ∀ k < 4, (cellAt t (a + k)).isSome = true := by
  simp only [Nat.forall_lt_succ_right, Nat.not_lt_zero, false_imp_iff, implies_true, true_and, and_assoc, Nat.add_zero]
  unfold textWord
  cases cellAt t a <;> cases cellAt t (a + 1) <;> cases cellAt t (a + 2) <;> cases cellAt t (a + 3) <;> simp

/-- The byte at a text word's own address is listed. -/
theorem exists_cell_of_inText {p : Params} {a : Word} (h : inText p a = true) : ∃ b, (a.toNat, b) ∈ p.text := by
  obtain ⟨b, hb⟩ := Option.isSome_iff_exists.1 ((textWord_isSome_iff _ _ _).1 h 0 (by decide))
  exact ⟨b, mem_of_cellAt hb⟩

theorem toNat_wordOf_mem {t : Memory} (ht : cellsRise t) {c : Host.Cell} (hc : c ∈ t) :
    (BitVec.ofNat 32 (c.1 / 4 * 4)).toNat = c.1 / 4 * 4 := by
  have := ht.2 c hc
  rw [BitVec.toNat_ofNat]
  omega

/-- A listed byte of a well-formed text lies in a text word. -/
theorem inText_wordOf_mem {p : Params} (ht : textWf p.text) {c : Host.Cell} (hc : c ∈ p.text) :
    inText p (BitVec.ofNat 32 (c.1 / 4 * 4)) = true := by
  obtain ⟨hrise, hwords⟩ := ht
  unfold inText textAt
  rw [toNat_wordOf_mem hrise hc, textWord_isSome_iff]
  exact hwords c hc

/-- The last byte listed has the greatest address. -/
theorem fst_le_getLast {m : Memory} {d : Host.Cell} (hm : cellsRise m) (hd : d ∈ m) :
    d.1 ≤ (m.getLast (List.ne_nil_of_mem hd)).1 :=
  List.Pairwise.rel_getLast_of_rel_getLast_getLast (R := fun c d => c.1 ≤ d.1) (hm.1.imp Nat.le_of_lt) hd le_rfl

/-- The last byte of a well-formed text lies in the greatest text word. -/
theorem getLast?_in_greatest_word {p : Params} (ht : textWf p.text) {a : Word} (ha : inText p a = true)
    (h4 : aligned a = true) (hmax : ∀ b, inText p b = true → aligned b = true → b.toNat ≤ a.toNat) :
    ∃ c, p.text.getLast? = some c ∧ c.1 / 4 * 4 = a.toNat := by
  obtain ⟨b, hb⟩ := exists_cell_of_inText ha
  have hne := List.ne_nil_of_mem hb
  refine ⟨p.text.getLast hne, List.getLast?_eq_some_getLast hne, ?_⟩
  have hle : a.toNat ≤ (p.text.getLast hne).1 := fst_le_getLast ht.1 hb
  have hge := hmax _ (inText_wordOf_mem ht (List.getLast_mem hne)) ((aligned_ofNat_iff _).2 (by omega))
  rw [toNat_wordOf_mem ht.1 (List.getLast_mem hne)] at hge
  have := (aligned_iff a).1 h4
  omega

/-- By default `END_PC` is the address past the greatest text word, modulo `2^32` (R202, log 5). -/
theorem endAddr_past_greatest_word {p : Params} (ht : textWf p.text) (he : p.endPc = none) {a : Word}
    (ha : inText p a = true) (h4 : aligned a = true)
    (hmax : ∀ b, inText p b = true → aligned b = true → b.toNat ≤ a.toNat) : endAddr p = some (a + 4#32) := by
  obtain ⟨c, hc, hword⟩ := getLast?_in_greatest_word ht ha h4 hmax
  rw [endAddr_of_default he, hc, Option.map_some, hword, BitVec.ofNat_add, BitVec.ofNat_toNat, BitVec.setWidth_eq]

/-- Settles O49: the last listed byte of a well-formed text lies in its greatest word. -/
theorem openEndPcDefaultsPastTheText : Obligations.OpenEndPcDefaultsPastTheText := by
  rintro p ⟨ht, -, hend⟩
  refine ⟨fun a => endAddr_of_given, fun he hnil => ?_, fun he a => endAddr_past_greatest_word ht he, fun a h => ?_⟩
  · simp [endAddr_of_default he, hnil]
  · exact (aligned_iff a).1 (aligned_of_endAddr hend h)

end Sys2Proof.Machine
end

section
/-! What one instruction writes (`10_state.md` sections 1, 2 and 4): one register of the table of R23, `pc`, and for `sw`
one word of data memory. All of it is read off `Completed`, the shapes of a completed instruction. -/

namespace Sys2Proof.Machine

/-- `pc <- A + 4` is an advance (R25). -/
theorem advances_of_pc_eq_nextPc {s t : State} (h : t.pc = s.nextPc) : Advances s t := by
  rw [Advances, h, nextPc_toNat]

/-- An instruction leaves every register alone but the one in its row of R23. -/
theorem exec_keeps_unlisted_reg {i : Instr} {s t : State} (h : exec i s = .next t) {q : RegNum}
    (hq : regWrites i ≠ some q) : t.reg q = s.reg q := by
  cases exec_next h with
  | wrote rd v hw hc => exact reg_setReg_other _ _ _ _ fun e => hq (e ▸ hw)
  | moved npc hw hc => rfl
  | linked npc hw hc => exact reg_setReg_other _ _ _ _ fun e => hq (e ▸ hw)
  | stored rs1 rs2 disp hi hok => rfl

theorem exec_advances {i : Instr} {s t : State} (h : exec i s = .next t) (hi : transfersControl i = false) :
    Advances s t := by
  apply advances_of_pc_eq_nextPc
  cases exec_next h with
  | wrote rd v hw hc => rfl
  | moved npc hw hc => exact hc hi
  | linked npc hw hc => exact absurd (hi.symm.trans hc) Bool.false_ne_true
  | stored rs1 rs2 disp hs hok => rfl

theorem exec_keeps_mem {i : Instr} {s t : State} (h : exec i s = .next t) (hi : i.mnemonic ≠ .sw) :
    t.mem = s.mem := by
  cases exec_next h with
  | wrote rd v hw hc => exact writeAndAdvance_mem ..
  | moved npc hw hc => rfl
  | linked npc hw hc => simp
  | stored rs1 rs2 disp hs hok => subst hs; exact absurd rfl hi

theorem step_keeps_params {s t : State} (h : step s = .next t) : t.params = s.params := by
  obtain ⟨-, ⟨-, rfl⟩ | ⟨i, hi⟩⟩ := step_next h
  · rfl
  · exact (exec_keepsRun hi).1

/-- Settles O40: every completed instruction that is no transfer leaves `pc` at `nextPc`. -/
theorem onlyTransfersRedirectThePc : Obligations.OnlyTransfersRedirectThePc :=
  fun _ _ _ => exec_advances

/-- Settles O41: of the shapes of a completed instruction only `sw`'s writes memory, and none writes the parameters. -/
theorem onlyStoreWritesMemory : Obligations.OnlyStoreWritesMemory :=
  ⟨fun _ _ _ => exec_keeps_mem, fun _ _ => step_keeps_params⟩

/-- Settles O38: the read-after-write rule of a register, where the register written is not 0. -/
theorem registerZeroIsHardWired : Obligations.RegisterZeroIsHardWired := by
  refine ⟨reg_zero, setReg_zero, fun s r q v hr => ?_⟩
  by_cases h : q = r
  · subst h
    rw [if_pos rfl, reg_setReg_self s q v hr]
  · rw [if_neg h, reg_setReg_other s r q v h]

end Sys2Proof.Machine
end

section
/-! What one instruction reads (`10_state.md` section 1, the table of R23): two states that agree outside the registers, and on
the registers the table lists as read, give the same outcome. -/

namespace Sys2Proof.Machine

/-- The same in all that an instruction reads besides the registers. -/
structure SameButRegs (s u : State) : Prop where
  pc : u.pc = s.pc
  mem : u.mem = s.mem
  params : u.params = s.params

/-- The same `pc` and data memory, and the same value in the register that `i` writes. -/
def SameEffect (i : Instr) (t v : State) : Prop :=
  t.pc = v.pc ∧ t.mem = v.mem ∧ ∀ q, regWrites i = some q → t.reg q = v.reg q

variable {i : Instr} {s u : State} {rd rs1 rs2 : RegNum}

/-- The same value written at the same place. -/
theorem writeAndAdvance_sameEffect (h : SameButRegs s u) (hi : regWrites i = some rd) {v w : Word} (hv : v = w) :
    SameEffect i (writeAndAdvance s rd v) (writeAndAdvance u rd w) := by
  refine ⟨(nextPc_congr h.pc).symm, by simp [h.mem], fun q hq => ?_⟩
  obtain rfl : rd = q := Option.some.inj (hi.symm.trans hq)
  by_cases h0 : rd = 0
  · subst h0; rfl
  · rw [writeAndAdvance_reg, writeAndAdvance_reg, reg_setReg_self _ _ _ h0, reg_setReg_self _ _ _ h0, hv]

/-- The same target, and no register written. -/
theorem setPc_sameEffect (h : SameButRegs s u) (hi : regWrites i = none) {v w : Word} (hv : v = w) :
    SameEffect i (s.setPc v) (u.setPc w) :=
  ⟨hv, h.mem.symm, fun q hq => by rw [hi] at hq; cases hq⟩

/-! ### The common executions -/

theorem aluRegReg_sameEffect (h : SameButRegs s u) (hi : regWrites i = some rd) (f : Word → Word → Word)
    (hr : ∀ q ∈ [rs1, rs2], u.reg q = s.reg q) :
    sameOutcome (SameEffect i) (aluRegReg f rd rs1 rs2 s) (aluRegReg f rd rs1 rs2 u) :=
  writeAndAdvance_sameEffect h hi (by rw [hr rs1 (by simp), hr rs2 (by simp)])

theorem aluRegImm_sameEffect (h : SameButRegs s u) (hi : regWrites i = some rd) (f : Word → Word → Word) (m : Word)
    (hr : ∀ q ∈ [rs1], u.reg q = s.reg q) :
    sameOutcome (SameEffect i) (aluRegImm f rd rs1 m s) (aluRegImm f rd rs1 m u) :=
  writeAndAdvance_sameEffect h hi (by rw [hr rs1 (by simp)])

theorem aluShift_sameEffect (h : SameButRegs s u) (hi : regWrites i = some rd) (f : Word → Nat → Word) {n m : Nat}
    (hn : m = n) (hr : u.reg rs1 = s.reg rs1) :
    sameOutcome (SameEffect i) (aluShift f rd rs1 n s) (aluShift f rd rs1 m u) :=
  writeAndAdvance_sameEffect h hi (by rw [hr, hn])

theorem branchIf_sameEffect (h : SameButRegs s u) (hi : regWrites i = none) {c d : Bool} (hc : d = c) (off : Word) :
    sameOutcome (SameEffect i) (branchIf c off s) (branchIf d off u) :=
  setPc_sameEffect h hi (by rw [hc, target_congr h.pc, nextPc_congr h.pc])

/-! ### The instructions with a rule of their own -/

theorem effAddr_of_reg (hr : u.reg rs1 = s.reg rs1) (disp : BitVec 16) :
    effAddr u rs1 disp = effAddr s rs1 disp := by simp [effAddr, hr]

theorem execJal_sameEffect (h : SameButRegs s u) (off : BitVec 26) :
    sameOutcome (SameEffect (.jal off)) (execJal off s) (execJal off u) := by
  refine ⟨(target_congr h.pc _).symm, by simp [h.mem], fun q hq => ?_⟩
  obtain rfl : linkReg = q := Option.some.inj hq
  have hne : linkReg ≠ 0 := by decide
  rw [setPc_reg, setPc_reg, reg_setReg_self _ _ _ hne, reg_setReg_self _ _ _ hne, nextPc_congr h.pc]

theorem execLw_sameEffect (h : SameButRegs s u) (disp : BitVec 16) (hr : u.reg rs1 = s.reg rs1) :
    sameOutcome (SameEffect (.lw rd rs1 disp)) (execLw rd rs1 disp s) (execLw rd rs1 disp u) := by
  rw [execLw_cases, execLw_cases, effAddr_of_reg hr, h.params, h.mem]
  cases accessFault s.params (effAddr s rs1 disp) with
  | some r => rfl
  | none => exact writeAndAdvance_sameEffect h rfl rfl

theorem execSw_sameEffect (h : SameButRegs s u) (disp : BitVec 16) (hr : ∀ q ∈ [rs1, rs2], u.reg q = s.reg q) :
    sameOutcome (SameEffect (.sw rs1 rs2 disp)) (execSw rs1 rs2 disp s) (execSw rs1 rs2 disp u) := by
  rw [execSw_cases, execSw_cases, effAddr_of_reg (hr rs1 (by simp)), hr rs2 (by simp), h.params, h.mem]
  cases accessFault s.params (effAddr s rs1 disp) with
  | some r => rfl
  | none => exact ⟨(nextPc_congr h.pc).symm, rfl, fun q hq => by cases hq⟩

/-! ### Every instruction -/

/-- An instruction sees no register but those its row of R23 lists as read. -/
theorem exec_sameEffect (h : SameButRegs s u) (hr : ∀ q ∈ regReads i, u.reg q = s.reg q) :
    sameOutcome (SameEffect i) (exec i s) (exec i u) := by
  cases i with
  | beqz rs1 x off => exact branchIf_sameEffect h rfl (by rw [hr rs1 (by simp [regReads])]) _
  | bnez rs1 x off => exact branchIf_sameEffect h rfl (by rw [hr rs1 (by simp [regReads])]) _
  | j off => exact setPc_sameEffect h rfl (target_congr h.pc _).symm
  | jal off => exact execJal_sameEffect h off
  | nop => exact setPc_sameEffect h rfl (nextPc_congr h.pc).symm
  | lw rd rs1 disp => exact execLw_sameEffect h disp (hr rs1 (by simp [regReads]))
  | sw rs1 rs2 disp => exact execSw_sameEffect h disp hr
  | sll rd rs1 rs2 =>
    exact aluShift_sameEffect h rfl _ (by rw [hr rs2 (by simp [regReads])]) (hr rs1 (by simp [regReads]))
  | srl rd rs1 rs2 =>
    exact aluShift_sameEffect h rfl _ (by rw [hr rs2 (by simp [regReads])]) (hr rs1 (by simp [regReads]))
  | slli rd rs1 imm => exact aluShift_sameEffect h rfl _ rfl (hr rs1 (by simp [regReads]))
  | srli rd rs1 imm => exact aluShift_sameEffect h rfl _ rfl (hr rs1 (by simp [regReads]))
  | add rd rs1 rs2 => exact aluRegReg_sameEffect h rfl _ hr
  | and rd rs1 rs2 => exact aluRegReg_sameEffect h rfl _ hr
  | or rd rs1 rs2 => exact aluRegReg_sameEffect h rfl _ hr
  | sge rd rs1 rs2 => exact aluRegReg_sameEffect h rfl _ hr
  | sle rd rs1 rs2 => exact aluRegReg_sameEffect h rfl _ hr
  | sne rd rs1 rs2 => exact aluRegReg_sameEffect h rfl _ hr
  | sub rd rs1 rs2 => exact aluRegReg_sameEffect h rfl _ hr
  | xor rd rs1 rs2 => exact aluRegReg_sameEffect h rfl _ hr
  | addi rd rs1 imm => exact aluRegImm_sameEffect h rfl _ _ hr
  | andi rd rs1 imm => exact aluRegImm_sameEffect h rfl _ _ hr
  | ori rd rs1 imm => exact aluRegImm_sameEffect h rfl _ _ hr
  | sgei rd rs1 imm => exact aluRegImm_sameEffect h rfl _ _ hr
  | slei rd rs1 imm => exact aluRegImm_sameEffect h rfl _ _ hr
  | snei rd rs1 imm => exact aluRegImm_sameEffect h rfl _ _ hr
  | subi rd rs1 imm => exact aluRegImm_sameEffect h rfl _ _ hr
  | xori rd rs1 imm => exact aluRegImm_sameEffect h rfl _ _ hr

/-- Settles O39: the write frame of a completed instruction, and the outcome as a function of the registers it reads. -/
theorem noRegisterOutsideTheTable : Obligations.NoRegisterOutsideTheTable :=
  ⟨fun _ _ _ h _ => exec_keeps_unlisted_reg h,
    fun _ _ _ hpc hmem hparams _ hr => exec_sameEffect ⟨hpc, hmem, hparams⟩ hr⟩

end Sys2Proof.Machine
end

section
/-! The invariant (`10_state.md` sections 4 and 5, `60_exceptions.md` R182, `70_reset_and_hazards.md` R202): it holds at every
launch and is kept by every step, by the recording of a fault, and so along every run. -/

namespace Sys2Proof.Machine

/-! ### The data memory -/

/-- A store into a mapped word lists bytes of that word alone. -/
theorem memBacked_writeWord {p : Params} {m : Memory} {a : Word} (o : ByteOrder) (v : Word) (ha : a.toNat % 4 = 0)
    (hm : mappedAt p a = true) (h : memBacked p m) : memBacked p (m.writeWord o a.toNat v) := by
  intro c hc
  rcases mem_writeWord hc with hin | hold
  · have hword : c.1 / 4 * 4 = a.toNat := by omega
    rwa [hword, BitVec.ofNat_toNat, BitVec.setWidth_eq]
  · exact h c hold

/-- An instruction leaves the data memory canonical and inside the map. -/
theorem exec_keeps_wf_backed {i : Instr} {s t : State} (h : exec i s = .next t) (hwf : s.mem.wf)
    (hb : memBacked s.params s.mem) : t.mem.wf ∧ memBacked s.params t.mem := by
  cases exec_next h with
  | wrote rd v hw hc => rw [writeAndAdvance_mem]; exact ⟨hwf, hb⟩
  | moved npc hw hc => exact ⟨hwf, hb⟩
  | linked npc hw hc => rw [setPc_mem, setReg_mem]; exact ⟨hwf, hb⟩
  | stored rs1 rs2 disp hi hok =>
    obtain ⟨ha, -, hm⟩ := accessFault_none.1 hok
    exact ⟨wf_writeWord _ _ (aligned_bound ((aligned_iff _).2 ha)) hwf, memBacked_writeWord _ _ ha hm hb⟩

/-! ### The run status -/

theorem statusOk_of_running {s : State} (h : s.status = .running) : statusOk s := by
  simp [statusOk, h]

theorem statusOk_ended {s : State} : statusOk s.ended ↔ endAddr s.params = some s.pc := Iff.rfl

/-- Recording a fault leaves the running state that raises it as it was. -/
theorem statusOk_raised {s : State} {r : Fault} :
    statusOk (s.raised r) ↔ step { s with status := .running } = .fault r := Iff.rfl

theorem statusOk_of_faulted {s : State} {r : Fault} (h : s.status = .faulted r) :
    statusOk s ↔ step { s with status := .running } = .fault r := by
  simp [statusOk, h]

/-- A step answers a fault by raising it, or because the state records it (log 6). -/
theorem status_of_step_fault {s : State} {r : Fault} (h : step s = .fault r) :
    s.status = .running ∨ s.status = .faulted r := by
  have hc := step_cases s
  rw [h] at hc
  generalize ho : Host.Outcome.fault r = o at hc
  cases hc with
  | finished => cases ho
  | stopped q hq => cases ho; exact .inr hq
  | ends => cases ho
  | fetchFault q hs => exact .inl hs
  | illegal w e hs => exact .inl hs
  | runs w i hs => exact .inl hs

/-- A fault that a step answers is the one the same state raises while it is running (R182). -/
theorem step_running_of_step_fault {s : State} {r : Fault} (hs : statusOk s) (h : step s = .fault r) :
    step { s with status := .running } = .fault r := by
  rcases status_of_step_fault h with hrun | hfault
  · rwa [← hrun]
  · exact (statusOk_of_faulted hfault).1 hs

/-! ### One transition -/

theorem exec_keeps_inv {i : Instr} {s t : State} (hs : Inv s) (hrun : s.status = .running) (h : exec i s = .next t) :
    Inv t := by
  obtain ⟨hparams, hstatus⟩ := exec_keepsRun h
  obtain ⟨hwf, hb⟩ := exec_keeps_wf_backed h hs.mem hs.backed
  exact ⟨hparams ▸ hs.params, hwf, hparams ▸ hb, statusOk_of_running (hstatus.trans hrun)⟩

theorem ended_keeps_inv {s : State} (hs : Inv s) (he : endAddr s.params = some s.pc) : Inv s.ended :=
  ⟨hs.params, hs.mem, hs.backed, statusOk_ended.2 he⟩

theorem raised_keeps_inv {s : State} {r : Fault} (hs : Inv s) (h : step s = .fault r) : Inv (s.raised r) :=
  ⟨hs.params, hs.mem, hs.backed, statusOk_raised.2 (step_running_of_step_fault hs.status h)⟩

theorem step_keeps_inv {s t : State} (hs : Inv s) (h : step s = .next t) : Inv t := by
  obtain ⟨hrun, ⟨he, rfl⟩ | ⟨i, hi⟩⟩ := step_next h
  · exact ended_keeps_inv hs he
  · exact exec_keeps_inv hs hrun hi

theorem advance_keeps_inv {s : State} (hs : Inv s) : Inv (advance s) := by
  unfold advance
  split
  next h => exact step_keeps_inv hs h
  next h => exact raised_keeps_inv hs h
  next => exact hs

theorem reaches_keeps_inv {s t : State} (hs : Inv s) (h : Reaches s t) : Inv t := by
  induction h with
  | here => exact hs
  | step _ hstep ih => exact step_keeps_inv ih hstep

/-! ### The statements -/

/-- Settles O53: the end of a run stands at `END_PC`, and an instruction stores only into a mapped word. -/
theorem stepKeepsTheInvariant : Obligations.StepKeepsTheInvariant :=
  fun _ _ => step_keeps_inv

/-- Settles O54, by the three answers of a step, and by induction on the steps of a run. -/
theorem advanceKeepsTheInvariant : Obligations.AdvanceKeepsTheInvariant :=
  ⟨fun _ => advance_keeps_inv, fun _ _ => reaches_keeps_inv⟩

/-- Settles O52: a launch is running, so its status asks for nothing. -/
theorem launchMeetsTheInvariant : Obligations.LaunchMeetsTheInvariant :=
  fun _ _ _ hp hm hb => ⟨hp, hm, hb, statusOk_of_running rfl⟩

/-- Settles O50: every field of a launch is the one given, and reset is the launch of the defaults. -/
theorem resetIsALaunchState : Obligations.ResetIsALaunchState :=
  ⟨fun _ _ _ => ⟨rfl, reg_zero _, rfl, rfl, rfl, rfl⟩, ⟨resetRegisters, [], rfl⟩, rfl, rfl, rfl⟩

end Sys2Proof.Machine
end

section
/-! The memory primitives (`20_memory.md` R43, R47-R49, R52): the checks of an access and their order, what one store does
to the words and bytes of the data memory, and what a fetch answers. -/

namespace Sys2Proof.Machine

/-! ### `MemRead` and `MemWrite` against their checks -/

theorem memRead_error_iff {s : State} {a : Word} {r : Fault} :
    memRead s a = .error r ↔ accessFault s.params a = some r := by
  cases h : accessFault s.params a with
  | some q => rw [memRead_of_some h, Except.error.injEq, Option.some.injEq]
  | none => simp [memRead_of_none h]

theorem memWrite_error_iff {s : State} {a v : Word} {r : Fault} :
    memWrite s a v = .error r ↔ accessFault s.params a = some r := by
  cases h : accessFault s.params a with
  | some q => rw [memWrite_of_some h, Except.error.injEq, Option.some.injEq]
  | none => simp [memWrite_of_none h]

theorem accessFault_none_of_memRead {s : State} {a u : Word} (h : memRead s a = .ok u) :
    accessFault s.params a = none := by
  cases hf : accessFault s.params a with
  | some r => rw [memRead_of_some hf] at h; cases h
  | none => rfl

theorem guardOff_or_notText_iff {p : Params} {a : Word} :
    p.textGuard = false ∨ textAt p a = none ↔ ¬ (p.textGuard = true ∧ inText p a = true) := by
  rw [not_and_or, Bool.not_eq_true, inText, Option.not_isSome_iff_eq_none]

/-- Settles O27: each clause is one outcome of the checks of R47. -/
theorem memReadChecksThenReads : Obligations.MemReadChecksThenReads := by
  refine fun s a => ⟨fun h4 => ?_, fun h4 hg ht => ?_, fun h4 hg hm => ?_, fun h4 hg hm => ?_⟩
  · exact memRead_of_some (accessFault_misaligned h4)
  · exact memRead_of_some (accessFault_text h4 hg (inText_iff.2 ht))
  · have hunmapped : mappedAt s.params a = false := by
      rw [← Bool.not_eq_true, mappedAt_iff]
      exact fun ⟨r, hr, hin⟩ => hm r hr hin
    exact memRead_of_some (accessFault_unmapped h4 (guardOff_or_notText_iff.1 hg) hunmapped)
  · exact memRead_of_none (accessFault_none.2 ⟨h4, guardOff_or_notText_iff.1 hg, mappedAt_iff.2 hm⟩)

/-! ### One store -/

/-- `s` with the word at `a` replaced by `v`: what `MemWrite` answers (R48). -/
def State.withWord (s : State) (a v : Word) : State :=
  { s with mem := s.mem.writeWord s.params.byteOrder a.toNat v }

section Store
variable (s : State) (a v : Word)

@[simp] theorem withWord_x : (s.withWord a v).x = s.x := rfl
@[simp] theorem withWord_pc : (s.withWord a v).pc = s.pc := rfl
@[simp] theorem withWord_status : (s.withWord a v).status = s.status := rfl
@[simp] theorem withWord_params : (s.withWord a v).params = s.params := rfl
@[simp] theorem withWord_mem : (s.withWord a v).mem = s.mem.writeWord s.params.byteOrder a.toNat v := rfl

variable {s a}

theorem memWrite_eq_withWord (h : accessFault s.params a = none) : memWrite s a v = .ok (s.withWord a v) :=
  memWrite_of_none h

/-- A read after a store: the word stored at its own address, and everywhere else the answer from before, fault or word. -/
theorem memRead_withWord (h : accessFault s.params a = none) (b : Word) :
    memRead (s.withWord a v) b = if b = a then .ok v else memRead s b := by
  cases hb : accessFault s.params b with
  | some r =>
    have hne : b ≠ a := by rintro rfl; rw [h] at hb; cases hb
    rw [if_neg hne, memRead_of_some hb, memRead_of_some (s := s.withWord a v) hb]
  | none =>
    rw [memRead_of_none hb, memRead_of_none (s := s.withWord a v) hb, withWord_mem, withWord_params,
      readWord_writeWord _ _ _ _ _ (accessFault_none.1 h).1 (accessFault_none.1 hb).1]
    simp only [BitVec.toNat_inj]
    split <;> rfl

end Store

/-- Settles O28: both primitives make one check, and past it the words of memory are those of `readWord_writeWord`. -/
theorem memWriteChecksThenWritesOneWord : Obligations.MemWriteChecksThenWritesOneWord := by
  refine fun s a v => ⟨fun r => memWrite_error_iff.trans memRead_error_iff.symm, fun u hu => ?_⟩
  have hok := accessFault_none_of_memRead hu
  refine ⟨s.withWord a v, memWrite_eq_withWord v hok, readWord_writeWord_same .., fun b hb hne => ?_, rfl, rfl, rfl, rfl⟩
  exact readWord_writeWord_other _ _ _ _ _ (accessFault_none.1 hok).1 hb fun e => hne (BitVec.eq_of_toNat_eq e)

/-! ### `sw`, then `lw` -/

theorem execSw_next {rs1 rs2 : RegNum} {disp : BitVec 16} {s t : State} (h : execSw rs1 rs2 disp s = .next t) :
    accessFault s.params (effAddr s rs1 disp) = none ∧
      t = (s.withWord (effAddr s rs1 disp) (s.reg rs2)).setPc s.nextPc := by
  rw [execSw_cases] at h
  split at h
  · cases h
  next hok => cases h; exact ⟨hok, rfl⟩

theorem execLw_of_memRead {rs1 : RegNum} {disp : BitVec 16} {s : State} {v : Word} (rd : RegNum)
    (h : memRead s (effAddr s rs1 disp) = .ok v) : execLw rd rs1 disp s = .next (writeAndAdvance s rd v) := by
  rw [execLw, loadWord, h, complete]

/-- A read after `sw` has completed. -/
theorem memRead_after_sw {rs1 rs2 : RegNum} {disp : BitVec 16} {s t : State} (h : execSw rs1 rs2 disp s = .next t)
    (b : Word) : memRead t b = if b = effAddr s rs1 disp then .ok (s.reg rs2) else memRead s b := by
  obtain ⟨hok, rfl⟩ := execSw_next h
  exact memRead_withWord _ hok b

theorem effAddr_after_sw {rs1 rs2 : RegNum} {disp : BitVec 16} {s t : State} (h : execSw rs1 rs2 disp s = .next t) :
    effAddr t rs1 disp = effAddr s rs1 disp := by
  obtain ⟨-, rfl⟩ := execSw_next h
  rfl

/-- Settles O29: the load computes the store's address again, and reads what the store left there. -/
theorem storeIsSeenByTheNextLoad : Obligations.StoreIsSeenByTheNextLoad := by
  intro rs1 rs2 rd disp s t hsw
  refine ⟨?_, fun a v ha => by rw [memRead_after_sw hsw, if_neg ha]⟩
  have hread : memRead t (effAddr t rs1 disp) = .ok (s.reg rs2) := by
    rw [memRead_after_sw hsw, if_pos (effAddr_after_sw hsw)]
  rw [exec, execLw_of_memRead rd hread]
  exact writeAndAdvance_completes t rd (s.reg rs2) fun _ => rfl

/-! ### The bytes of a word -/

/-- A field of a word, as R5 writes it. -/
theorem toNat_extractLsb'_eq_slice (w : Word) (lo n : Nat) :
    (w.extractLsb' lo (n + 1)).toNat = slice w (lo + n) lo := by
  rw [BitVec.extractLsb'_toNat, slice, Nat.shiftRight_eq_div_pow, Nat.add_sub_cancel_left]

theorem toNat_byteOfWord_big (w : Word) (k : Nat) :
    (byteOfWord .big w k).toNat = slice w (8 * (3 - k) + 7) (8 * (3 - k)) := toNat_extractLsb'_eq_slice ..

theorem toNat_byteOfWord_little (w : Word) (k : Nat) :
    (byteOfWord .little w k).toNat = slice w (8 * k + 7) (8 * k) := toNat_extractLsb'_eq_slice ..

theorem readByte_writeWord_add (o : ByteOrder) (m : Memory) (a : Nat) (v : Word) {k : Nat} (hk : k < 4) :
    (m.writeWord o a v).readByte (a + k) = byteOfWord o v k := by
  rw [readByte_writeWord, if_pos (by omega), Nat.add_sub_cancel_left]

/-- The byte `k` of a word stored in big endian order is `v[31 - 8k : 24 - 8k]` (R43). -/
theorem toNat_readByte_writeWord_big (m : Memory) (a : Nat) (v : Word) {k : Nat} (hk : k < 4) :
    ((m.writeWord .big a v).readByte (a + k)).toNat = slice v (8 * (3 - k) + 7) (8 * (3 - k)) := by
  rw [readByte_writeWord_add _ _ _ _ hk, toNat_byteOfWord_big]

/-- The byte `k` of a word stored in little endian order is `v[8k + 7 : 8k]` (R43). -/
theorem toNat_readByte_writeWord_little (m : Memory) (a : Nat) (v : Word) {k : Nat} (hk : k < 4) :
    ((m.writeWord .little a v).readByte (a + k)).toNat = slice v (8 * k + 7) (8 * k) := by
  rw [readByte_writeWord_add _ _ _ _ hk, toNat_byteOfWord_little]

/-- Settles O30: byte by byte, and the word by `readWord_writeWord_same`. -/
theorem byteOrderLaysOutAWord : Obligations.ByteOrderLaysOutAWord := by
  intro m a v
  have hbig (k : Fin 4) := toNat_readByte_writeWord_big m a v k.isLt
  have hlittle (k : Fin 4) := toNat_readByte_writeWord_little m a v k.isLt
  exact ⟨⟨hbig 0, hbig 1, hbig 2, hbig 3, readWord_writeWord_same ..⟩,
    ⟨hlittle 0, hlittle 1, hlittle 2, hlittle 3, readWord_writeWord_same ..⟩⟩

/-! ### `Fetch` -/

/-- Settles O43: each clause is one outcome of the checks of R49; the last is R205's first test. -/
theorem fetchChecksThenReadsText : Obligations.FetchChecksThenReadsText :=
  fun _ _ => ⟨fetch_misaligned, fetch_unmapped, fun _ => fetch_text, step_atEnd⟩

end Sys2Proof.Machine
end

section
/-! What a step observes of a state: registers, `pc`, status, `END_PC`, and the answers of `Fetch` and `MemRead`. States alike
in that step alike, and a step leaves every word that no access can reach. From these two facts: the byte order is unobservable
(R43, D6), and so is, with the text guard on, the data memory under the program text (R41, D9). -/

namespace Sys2Proof.Machine

/-- The same in all that a step observes. -/
structure SameView (s t : State) : Prop where
  x : s.x = t.x
  pc : s.pc = t.pc
  status : s.status = t.status
  endAddr : endAddr s.params = endAddr t.params
  fetch : ∀ a, fetch s a = fetch t a
  memRead : ∀ a, memRead s a = memRead t a

/-! ### The updates of the state keep the view -/

theorem fetch_setReg (s : State) (r : RegNum) (v a : Word) : fetch (s.setReg r v) a = fetch s a := by
  simp only [fetch, setReg_params]

theorem memRead_setReg (s : State) (r : RegNum) (v a : Word) : memRead (s.setReg r v) a = memRead s a := by
  simp only [memRead, setReg_params, setReg_mem]

section View
variable {s t : State} {rd rs1 rs2 : RegNum} {v w : Word} (h : SameView s t)
include h

theorem accessFault_of_sameView (a : Word) : accessFault s.params a = accessFault t.params a :=
  Option.ext fun r => by rw [← memRead_error_iff, ← memRead_error_iff, h.memRead]

theorem setPc_sameView (hv : v = w) : SameView (s.setPc v) (t.setPc w) :=
  ⟨h.x, hv, h.status, h.endAddr, h.fetch, h.memRead⟩

theorem ended_sameView : SameView s.ended t.ended :=
  ⟨h.x, h.pc, rfl, h.endAddr, h.fetch, h.memRead⟩

theorem setReg_sameView (r : RegNum) (hv : v = w) : SameView (s.setReg r v) (t.setReg r w) where
  x := hv ▸ setReg_x_congr h.x r v
  pc := by rw [setReg_pc, setReg_pc, h.pc]
  status := by rw [setReg_status, setReg_status, h.status]
  endAddr := by rw [setReg_params, setReg_params, h.endAddr]
  fetch a := by rw [fetch_setReg, fetch_setReg, h.fetch]
  memRead a := by rw [memRead_setReg, memRead_setReg, h.memRead]

theorem writeAndAdvance_sameView (hv : v = w) : SameView (writeAndAdvance s rd v) (writeAndAdvance t rd w) :=
  setPc_sameView (setReg_sameView h rd hv) (nextPc_congr h.pc)

/-- A store leaves the same word in both, whatever bytes it is made of. -/
theorem withWord_sameView {a : Word} (hok : accessFault s.params a = none) (v : Word) :
    SameView (s.withWord a v) (t.withWord a v) := by
  refine ⟨h.x, h.pc, h.status, h.endAddr, h.fetch, fun b => ?_⟩
  have hok' : accessFault t.params a = none := accessFault_of_sameView h a ▸ hok
  rw [memRead_withWord v hok, memRead_withWord v hok', h.memRead]

/-! ### The instructions keep the view -/

theorem aluRegReg_sameView (f : Word → Word → Word) :
    sameOutcome SameView (aluRegReg f rd rs1 rs2 s) (aluRegReg f rd rs1 rs2 t) :=
  writeAndAdvance_sameView h (by rw [reg_congr h.x, reg_congr h.x])

theorem aluRegImm_sameView (f : Word → Word → Word) (m : Word) :
    sameOutcome SameView (aluRegImm f rd rs1 m s) (aluRegImm f rd rs1 m t) :=
  writeAndAdvance_sameView h (by rw [reg_congr h.x])

theorem aluShift_sameView (f : Word → Nat → Word) {n m : Nat} (hn : n = m) :
    sameOutcome SameView (aluShift f rd rs1 n s) (aluShift f rd rs1 m t) :=
  writeAndAdvance_sameView h (by rw [reg_congr h.x, hn])

theorem branchIf_sameView {c d : Bool} (hc : c = d) (off : Word) :
    sameOutcome SameView (branchIf c off s) (branchIf d off t) :=
  setPc_sameView h (by rw [hc, target_congr h.pc, nextPc_congr h.pc])

theorem execJal_sameView (off : BitVec 26) : sameOutcome SameView (execJal off s) (execJal off t) :=
  setPc_sameView (setReg_sameView h linkReg (nextPc_congr h.pc)) (target_congr h.pc _)

theorem execLw_sameView (disp : BitVec 16) :
    sameOutcome SameView (execLw rd rs1 disp s) (execLw rd rs1 disp t) := by
  unfold execLw loadWord
  rw [effAddr_congr h.x, h.memRead]
  cases memRead t (effAddr t rs1 disp) with
  | error r => rfl
  | ok v => exact writeAndAdvance_sameView h rfl

theorem execSw_sameView (disp : BitVec 16) :
    sameOutcome SameView (execSw rs1 rs2 disp s) (execSw rs1 rs2 disp t) := by
  rw [execSw_cases, execSw_cases, ← effAddr_congr h.x, ← accessFault_of_sameView h, ← reg_congr h.x]
  cases hok : accessFault s.params (effAddr s rs1 disp) with
  | some r => rfl
  | none => exact setPc_sameView (withWord_sameView h hok _) (nextPc_congr h.pc)

theorem exec_sameView (i : Instr) : sameOutcome SameView (exec i s) (exec i t) := by
  cases i with
  | lw rd rs1 disp => exact execLw_sameView h disp
  | sw rs1 rs2 disp => exact execSw_sameView h disp
  | beqz rs1 u off | bnez rs1 u off => exact branchIf_sameView h (by rw [reg_congr h.x]) _
  | j off => exact setPc_sameView h (target_congr h.pc _)
  | jal off => exact execJal_sameView h off
  | nop => exact setPc_sameView h (nextPc_congr h.pc)
  | sll rd rs1 rs2 | srl rd rs1 rs2 => exact aluShift_sameView h _ (by rw [reg_congr h.x])
  | slli rd rs1 imm | srli rd rs1 imm => exact aluShift_sameView h _ rfl
  | add rd rs1 rs2 | and rd rs1 rs2 | or rd rs1 rs2 | sge rd rs1 rs2 | sle rd rs1 rs2 | sne rd rs1 rs2
  | sub rd rs1 rs2 | xor rd rs1 rs2 => exact aluRegReg_sameView h _
  | addi rd rs1 imm | andi rd rs1 imm | ori rd rs1 imm | sgei rd rs1 imm | slei rd rs1 imm | snei rd rs1 imm
  | subi rd rs1 imm | xori rd rs1 imm => exact aluRegImm_sameView h _ _

end View

/-! ### A step keeps the view -/

theorem step_of_ended {s : State} (h : s.status = .ended) : step s = .refused .runEnded := by
  simp only [step, issue, h]

theorem step_of_faulted {s : State} {r : Fault} (h : s.status = .faulted r) : step s = .fault r := by
  simp only [step, issue, h, raise]

/-- States alike in view take the same branch of R205. -/
theorem step_sameView {s t : State} (h : SameView s t) : sameOutcome SameView (step s) (step t) := by
  have hfetch : fetch s s.pc = fetch t t.pc := by rw [h.pc, h.fetch]
  have hend : endAddr s.params = some s.pc ↔ endAddr t.params = some t.pc := by rw [h.pc, h.endAddr]
  have hc := step_cases s
  generalize step s = o at hc ⊢
  cases hc with
  | finished hs => rw [step_of_ended (h.status ▸ hs)]; rfl
  | stopped r hs => rw [step_of_faulted (h.status ▸ hs)]; rfl
  | ends hs he => rw [step_atEnd (h.status ▸ hs) (hend.1 he)]; exact ended_sameView h
  | fetchFault r hs he hf => rw [step_fetchFault (h.status ▸ hs) (mt hend.2 he) (hfetch ▸ hf)]; rfl
  | illegal w e hs he hf hd =>
    rw [step_illegal (h.status ▸ hs) (mt hend.2 he) (hfetch ▸ hf) hd, h.pc]; rfl
  | runs w i hs he hf hd =>
    rw [step_run (h.status ▸ hs) (mt hend.2 he) (hfetch ▸ hf) hd]; exact exec_sameView h i

/-! ### What a step does to the words of the data memory -/

/-- A word that an access may not reach is as before. -/
theorem exec_keeps_unreached_word {i : Instr} {s t : State} (h : exec i s = .next t) {a : Word} {r : Fault}
    (h4 : aligned a = true) (hr : accessFault s.params a = some r) :
    t.mem.readWord s.params.byteOrder a.toNat = s.mem.readWord s.params.byteOrder a.toNat := by
  cases exec_next h with
  | wrote rd v hw hc => rw [writeAndAdvance_mem]
  | moved npc hw hc => rfl
  | linked npc hw hc => rw [setPc_mem, setReg_mem]
  | stored rs1 rs2 disp hi hok =>
    have hne : a ≠ effAddr s rs1 disp := by rintro rfl; rw [hok] at hr; cases hr
    exact readWord_writeWord_other _ _ _ _ _ (accessFault_none.1 hok).1 ((aligned_iff a).1 h4)
      fun e => hne (BitVec.eq_of_toNat_eq e)

theorem step_keeps_unreached_word {s t : State} (h : step s = .next t) {a : Word} {r : Fault} (h4 : aligned a = true)
    (hr : accessFault s.params a = some r) :
    t.mem.readWord t.params.byteOrder a.toNat = s.mem.readWord s.params.byteOrder a.toNat := by
  rw [step_keeps_params h]
  obtain ⟨-, ⟨-, rfl⟩ | ⟨i, hi⟩⟩ := step_next h
  · rfl
  · exact exec_keeps_unreached_word hi h4 hr

/-- A word an access may reach is part of the view. -/
theorem readWord_of_sameView {s t : State} (h : SameView s t) {a : Word} (hok : accessFault s.params a = none) :
    s.mem.readWord s.params.byteOrder a.toNat = t.mem.readWord t.params.byteOrder a.toNat := by
  have hread := h.memRead a
  rwa [memRead_of_none hok, memRead_of_none (accessFault_of_sameView h a ▸ hok), Except.ok.injEq] at hread

/-- Where two states alike in view agree on a word, they agree on it after a step: the view holds it, or no step writes it. -/
theorem readWord_congr_step {s t s' t' : State} (h : SameView s t) (hs : step s = .next s') (ht : step t = .next t')
    (h' : SameView s' t') {a : Word} (h4 : aligned a = true)
    (hw : s.mem.readWord s.params.byteOrder a.toNat = t.mem.readWord t.params.byteOrder a.toNat) :
    s'.mem.readWord s'.params.byteOrder a.toNat = t'.mem.readWord t'.params.byteOrder a.toNat := by
  cases hr : accessFault s.params a with
  | none => exact readWord_of_sameView h' (by rwa [step_keeps_params hs])
  | some r =>
    rw [step_keeps_unreached_word hs h4 hr, step_keeps_unreached_word ht h4 (accessFault_of_sameView h a ▸ hr), hw]

/-! ### From the view to the two relations -/

theorem sameOutcome_imp {R Q : State → State → Prop} {o q : Host.Outcome State Fault Refusal} (h : sameOutcome R o q)
    (hRQ : ∀ s t, o = .next s → q = .next t → R s t → Q s t) : sameOutcome Q o q := by
  cases o with
  | next s =>
    cases q with
    | next t => exact hRQ s t rfl rfl h
    | fault r => exact h
    | refused r => exact h
  | fault r => cases q <;> exact h
  | refused r => cases q <;> exact h

theorem sameWords_accessFault {s t : State} (h : SameWords s t) (a : Word) :
    accessFault s.params a = accessFault t.params a := by
  unfold accessFault
  cases h4 : aligned a with
  | false => rfl
  | true => rw [inText, inText, h.text a h4, mappedAt, mappedAt, h.mapped, h.textGuard]

theorem sameWords_sameView {s t : State} (h : SameWords s t) : SameView s t := by
  refine ⟨h.x, h.pc, h.status, h.endAddr, fun a => ?_, fun a => ?_⟩
  · unfold fetch
    cases h4 : aligned a with
    | false => rfl
    | true => rw [h.text a h4]
  · unfold memRead
    rw [sameWords_accessFault h]
    cases hok : accessFault t.params a with
    | some r => rfl
    | none => rw [h.mem a ((aligned_iff a).2 (accessFault_none.1 hok).1)]

/-- With the guard on, no access reaches a word of the text. -/
theorem sameOutsideText_sameView {s t : State} (hg : s.params.textGuard = true) (h : SameOutsideText s t) :
    SameView s t := by
  refine ⟨h.x, h.pc, h.status, by rw [h.params], fun a => by rw [fetch, fetch, h.params], fun a => ?_⟩
  unfold memRead
  rw [← h.params]
  cases hok : accessFault s.params a with
  | some r => rfl
  | none =>
    obtain ⟨h4, hguard, -⟩ := accessFault_none.1 hok
    have hout : inText s.params a = false := Bool.eq_false_iff.2 fun ht => hguard ⟨hg, ht⟩
    have hw := h.mem a ((aligned_iff a).2 h4) hout
    rw [← h.params] at hw
    rw [hw]

/-- Settles O55: states equal word by word are alike in view, and their next states agree on every word. -/
theorem byteOrderIsUnobservable : Obligations.ByteOrderIsUnobservable := by
  intro s t h
  have hv := sameWords_sameView h
  refine sameOutcome_imp (step_sameView hv) fun s' t' hs ht hv' => ?_
  have hp := step_keeps_params hs
  have hq := step_keeps_params ht
  exact
    { x := hv'.x
      pc := hv'.pc
      status := hv'.status
      mapped := by rw [hp, hq, h.mapped]
      textGuard := by rw [hp, hq, h.textGuard]
      resetPc := by rw [hp, hq, h.resetPc]
      endAddr := hv'.endAddr
      text := by rw [hp, hq]; exact h.text
      mem := fun a h4 => readWord_congr_step hv hs ht hv' h4 (h.mem a h4) }

/-- Settles O56: the guard keeps the words under the text out of the view, and the next states agree on all others. -/
theorem guardedTextIsNotData : Obligations.GuardedTextIsNotData := by
  intro s t hg h
  have hv := sameOutsideText_sameView hg h
  refine sameOutcome_imp (step_sameView hv) fun s' t' hs ht hv' => ?_
  have hp := step_keeps_params hs
  exact
    { x := hv'.x
      pc := hv'.pc
      status := hv'.status
      params := by rw [hp, step_keeps_params ht, h.params]
      mem := fun a h4 hout => readWord_congr_step hv hs ht hv' h4 (h.mem a h4 (hp ▸ hout)) }

end Sys2Proof.Machine
end

section
/-! Encoder and decoder are inverse (`30_encoding.md` sections 1 and 3, R71-R79), format by format, and the rows of R78 are
the decoder's own cases. -/

namespace Sys2Proof.Machine

variable {w : Word} {i : Instr}

/-! ### Round trips -/

/-- The fields of the encoded word select the decoder's arm, by `op` (in the R format also `func`), and fill its operands. -/
theorem decode_encode (i : Instr) : decode (encode i) = .ok i := by
  cases i with
  | add | and | or | sge | sle | sll | sne | srl | sub | xor =>
    simp only [encode, decode_rtype (opField_encodeR ..), decodeRType, funcField_encodeR, r3Bits_encodeR,
      rs1Bits_encodeR, r2Bits_encodeR, regOfBits_bitsOfReg]
  | j | jal | nop => simp only [encode, decode, opField_encodeJ, imm26Field_encodeJ, ↓reduceIte]
  | addi | andi | beqz | bnez | lw | ori | sgei | slei | slli | snei | srli | subi | sw | xori =>
    simp only [encode, decode, opField_encodeI, rs1Bits_encodeI, r2Bits_encodeI, imm16Field_encodeI,
      regOfBits_bitsOfReg]

theorem encode_of_decodeRType (ho : opField w = 0x00#6) (h : decodeRType w = .ok i) : encode i = w := by
  unfold decodeRType at h
  split at h
  case h_11 => cases h
  all_goals
    next hf =>
    cases h
    rw [encode, ← hf]
    exact encodeR_fields w ho

/-- Of the decoder's arms in order, the first is the R group, the next two the jumps, the twelfth `nop`, and the last
the reserved `op`; all others are of the I format. -/
theorem encode_of_decode (h : decode w = .ok i) : encode i = w := by
  unfold decode at h
  split at h
  case h_1 ho => exact encode_of_decodeRType ho h
  case h_2 ho | h_3 ho => cases h; rw [encode, ← ho, encodeJ_fields]
  case h_12 ho =>
    split at h
    · next hz => cases h; rw [encode, ← ho, ← hz, encodeJ_fields]
    · cases h
  case h_19 => cases h
  all_goals
    next ho =>
    cases h
    simp only [encode, bitsOfReg_regOfBits, ← ho, encodeI_fields]

/-- Settles O1: the fields of an encoded word are the fields it was put together from. -/
theorem decodeOfEncodeIsIdentity : Obligations.DecodeOfEncodeIsIdentity := decode_encode

/-- Settles O2: a decodable word is put together from its fields. -/
theorem encodeOfDecodeIsIdentity : Obligations.EncodeOfDecodeIsIdentity := fun _ _ => encode_of_decode

/-! ### The rows of R78 -/

theorem encode_matchesOwnRow (i : Instr) : Laws.MatchesOwnRow.Statement i := by
  cases i with
  | add => exact Laws.MatchesOwnRow.add ..
  | addi => exact Laws.MatchesOwnRow.addi ..
  | and => exact Laws.MatchesOwnRow.and ..
  | andi => exact Laws.MatchesOwnRow.andi ..
  | beqz => exact Laws.MatchesOwnRow.beqz ..
  | bnez => exact Laws.MatchesOwnRow.bnez ..
  | j => exact Laws.MatchesOwnRow.j ..
  | jal => exact Laws.MatchesOwnRow.jal ..
  | lw => exact Laws.MatchesOwnRow.lw ..
  | nop => exact Laws.MatchesOwnRow.nop
  | or => exact Laws.MatchesOwnRow.or ..
  | ori => exact Laws.MatchesOwnRow.ori ..
  | sge => exact Laws.MatchesOwnRow.sge ..
  | sgei => exact Laws.MatchesOwnRow.sgei ..
  | sle => exact Laws.MatchesOwnRow.sle ..
  | slei => exact Laws.MatchesOwnRow.slei ..
  | sll => exact Laws.MatchesOwnRow.sll ..
  | slli => exact Laws.MatchesOwnRow.slli ..
  | sne => exact Laws.MatchesOwnRow.sne ..
  | snei => exact Laws.MatchesOwnRow.snei ..
  | srl => exact Laws.MatchesOwnRow.srl ..
  | srli => exact Laws.MatchesOwnRow.srli ..
  | sub => exact Laws.MatchesOwnRow.sub ..
  | subi => exact Laws.MatchesOwnRow.subi ..
  | sw => exact Laws.MatchesOwnRow.sw ..
  | xor => exact Laws.MatchesOwnRow.xor ..
  | xori => exact Laws.MatchesOwnRow.xori ..

/-- A decodable word matches the row of its instruction. -/
theorem exists_row_of_decode (h : decode w = .ok i) :
    ∃ row ∈ opcodeRows, row.mnemonic = i.mnemonic ∧ w &&& row.mask = row.bits :=
  encode_of_decode h ▸ encode_matchesOwnRow i

/-- Each mnemonic has one row. -/
theorem opcodeRows_mnemonic_inj : ∀ r ∈ opcodeRows, ∀ q ∈ opcodeRows, r.mnemonic = q.mnemonic → r = q := by decide

/-- The decoder answers an instruction with this mnemonic. -/
def DecodesAs (w : Word) (m : Mnemonic) : Prop := ∃ i, decode w = .ok i ∧ i.mnemonic = m

theorem decodesAs_of_rowsRType : ∀ row ∈ rowsRType, w &&& row.mask = row.bits → DecodesAs w row.mnemonic := by
  simp only [rowsRType, List.forall_mem_cons]
  exact ⟨fun h => ⟨_, decode_sll (opField_of_mask_func h) (funcField_of_mask h), rfl⟩,
    fun h => ⟨_, decode_srl (opField_of_mask_func h) (funcField_of_mask h), rfl⟩,
    fun h => ⟨_, decode_add (opField_of_mask_func h) (funcField_of_mask h), rfl⟩,
    fun h => ⟨_, decode_sub (opField_of_mask_func h) (funcField_of_mask h), rfl⟩,
    fun h => ⟨_, decode_and (opField_of_mask_func h) (funcField_of_mask h), rfl⟩,
    fun h => ⟨_, decode_or (opField_of_mask_func h) (funcField_of_mask h), rfl⟩,
    fun h => ⟨_, decode_xor (opField_of_mask_func h) (funcField_of_mask h), rfl⟩,
    fun h => ⟨_, decode_sne (opField_of_mask_func h) (funcField_of_mask h), rfl⟩,
    fun h => ⟨_, decode_sle (opField_of_mask_func h) (funcField_of_mask h), rfl⟩,
    fun h => ⟨_, decode_sge (opField_of_mask_func h) (funcField_of_mask h), rfl⟩,
    by simp⟩

theorem decodesAs_of_rowsImmediate :
    ∀ row ∈ rowsImmediate, w &&& row.mask = row.bits → DecodesAs w row.mnemonic := by
  simp only [rowsImmediate, List.forall_mem_cons]
  exact ⟨fun h => ⟨_, decode_addi (opField_of_mask h), rfl⟩,
    fun h => ⟨_, decode_subi (opField_of_mask h), rfl⟩,
    fun h => ⟨_, decode_andi (opField_of_mask h), rfl⟩,
    fun h => ⟨_, decode_ori (opField_of_mask h), rfl⟩,
    fun h => ⟨_, decode_xori (opField_of_mask h), rfl⟩,
    fun h => ⟨_, decode_slli (opField_of_mask h), rfl⟩,
    fun h => ⟨_, decode_srli (opField_of_mask h), rfl⟩,
    fun h => ⟨_, decode_snei (opField_of_mask h), rfl⟩,
    fun h => ⟨_, decode_slei (opField_of_mask h), rfl⟩,
    fun h => ⟨_, decode_sgei (opField_of_mask h), rfl⟩,
    by simp⟩

/-- The mask of `nop` keeps the whole word (R78 (b)). -/
theorem eq_of_mask_all {b : Word} (h : w &&& 0xFFFFFFFF#32 = b) : w = b := by
  rw [← h]
  exact (BitVec.and_allOnes).symm

theorem decodesAs_of_rowsOther : ∀ row ∈ rowsOther, w &&& row.mask = row.bits → DecodesAs w row.mnemonic := by
  simp only [rowsOther, List.forall_mem_cons]
  exact ⟨fun h => ⟨_, decode_lw (opField_of_mask h), rfl⟩,
    fun h => ⟨_, decode_sw (opField_of_mask h), rfl⟩,
    fun h => ⟨_, decode_beqz (opField_of_mask h), rfl⟩,
    fun h => ⟨_, decode_bnez (opField_of_mask h), rfl⟩,
    fun h => ⟨_, decode_j (opField_of_mask h), rfl⟩,
    fun h => ⟨_, decode_jal (opField_of_mask h), rfl⟩,
    fun h => ⟨.nop, by rw [eq_of_mask_all h]; exact decode_encode .nop, rfl⟩,
    by simp⟩

theorem decodesAs_of_row {row : Row} (hr : row ∈ opcodeRows) (h : w &&& row.mask = row.bits) :
    DecodesAs w row.mnemonic := by
  rcases List.mem_append.1 hr with hr | hr
  · rcases List.mem_append.1 hr with hr | hr
    · exact decodesAs_of_rowsRType row hr h
    · exact decodesAs_of_rowsImmediate row hr h
  · exact decodesAs_of_rowsOther row hr h

theorem row_of_decodesAs {row : Row} (hr : row ∈ opcodeRows) (h : DecodesAs w row.mnemonic) :
    w &&& row.mask = row.bits := by
  obtain ⟨i, hd, hm⟩ := h
  obtain ⟨own, hown, hown_m, hmatch⟩ := exists_row_of_decode hd
  obtain rfl := opcodeRows_mnemonic_inj own hown row hr (hown_m.trans hm)
  exact hmatch

/-- Settles O3: a matched row selects its own arm of the decoder; a decoded word is an encoding, which matches its row. -/
theorem decodeMatchesOpcodeRows : Obligations.DecodeMatchesOpcodeRows := by
  refine ⟨fun w row hr => ⟨decodesAs_of_row hr, row_of_decodesAs hr⟩,
    fun w => ⟨fun hno => ?_, fun ⟨e, he⟩ row hr hmatch => ?_⟩⟩
  · cases hd : decode w with
    | error e => exact ⟨e, rfl⟩
    | ok i =>
      obtain ⟨row, hr, -, hmatch⟩ := exists_row_of_decode hd
      exact absurd hmatch (hno row hr)
  · obtain ⟨i, hd, -⟩ := decodesAs_of_row hr hmatch
    cases he.symm.trans hd

end Sys2Proof.Machine
end

section
/-! Assembler lines (`30_encoding.md` section 5): a line's operands and the fields they become, the labels of transfers
(R83), and the idioms that follow from register 0 (R84). -/

namespace Sys2Proof.Machine

/-! ### Fields from values: the ranges of R75 hold every value of the field -/

@[simp] theorem simm16OfInt_toInt (imm : BitVec 16) : simm16OfInt imm.toInt = some imm := by
  have hlo := imm.le_toInt
  have hhi := imm.toInt_lt
  rw [simm16OfInt, if_pos (by omega), BitVec.ofInt_toInt]

@[simp] theorem simm26OfInt_toInt (off : BitVec 26) : simm26OfInt off.toInt = some off := by
  have hlo := off.le_toInt
  have hhi := off.toInt_lt
  rw [simm26OfInt, if_pos (by omega), BitVec.ofInt_toInt]

@[simp] theorem uimm16OfInt_toNat (imm : BitVec 16) : uimm16OfInt imm.toNat = some imm := by
  have := imm.isLt
  rw [uimm16OfInt, if_pos (by omega), BitVec.ofInt_natCast, BitVec.ofNat_toNat, BitVec.setWidth_eq]

theorem shamtOfInt_toNat {imm : BitVec 16} (h : imm.toNat < 32) : shamtOfInt imm.toNat = some imm := by
  rw [shamtOfInt, if_pos (by omega), BitVec.ofInt_natCast, BitVec.ofNat_toNat, BitVec.setWidth_eq]

/-- A shift amount leaves the bits above the low five zero. -/
theorem toNat_lt_of_shamtOfInt {v : Int} {imm : BitVec 16} (h : shamtOfInt v = some imm) : imm.toNat < 32 := by
  obtain ⟨hv, ⟨⟩⟩ := Option.ite_none_right_eq_some.1 h
  rw [BitVec.toNat_ofInt]
  omega

/-! ### Labels (R83) -/

/-- The label a transfer at `addr` goes to is at the offset of the transfer. -/
@[simp] theorem labelOffset_add (addr v : Word) : labelOffset addr (addr + 4#32 + v) = v.toInt := by
  rw [labelOffset, add_sub_cancel_left]

theorem toInt_sext16_of_simm16OfInt {v : Int} {off : BitVec 16} (h : simm16OfInt v = some off) :
    (sext16 off).toInt = v := by
  obtain ⟨hv, ⟨⟩⟩ := Option.ite_none_right_eq_some.1 h
  rw [sext16, BitVec.toInt_signExtend_of_le (by decide), BitVec.toInt_ofInt_eq_self (by decide) (by omega) (by omega)]

theorem toInt_sext26_of_simm26OfInt {v : Int} {off : BitVec 26} (h : simm26OfInt v = some off) :
    (sext26 off).toInt = v := by
  obtain ⟨hv, ⟨⟩⟩ := Option.ite_none_right_eq_some.1 h
  rw [sext26, BitVec.toInt_signExtend_of_le (by decide), BitVec.toInt_ofInt_eq_self (by decide) (by omega) (by omega)]

/-- An offset equal to the label's offset takes the transfer to the label. -/
theorem target_of_labelOffset {s : State} {off lab : Word} (h : off.toInt = labelOffset s.pc lab) :
    target s off = lab := by
  rw [BitVec.eq_of_toInt_eq h, target, State.nextPc, add_sub_cancel]

/-! ### What a line of each form assembles to -/

section Forms
variable {ops : List AsmOperand} {i : Instr} {addr : Word}

theorem eq_of_asmRegReg {mk : RegNum → RegNum → RegNum → Instr} (h : asmRegReg mk ops = some i) :
    ∃ rd rs1 rs2, i = mk rd rs1 rs2 := by
  unfold asmRegReg at h
  split at h
  · cases h; exact ⟨_, _, _, rfl⟩
  · cases h

theorem eq_of_asmRegImm {field : Int → Option (BitVec 16)} {mk : RegNum → RegNum → BitVec 16 → Instr}
    (h : asmRegImm field mk ops = some i) : ∃ rd rs1 v imm, field v = some imm ∧ i = mk rd rs1 imm := by
  unfold asmRegImm at h
  split at h
  · obtain ⟨imm, hf, rfl⟩ := Option.map_eq_some_iff.1 h
    exact ⟨_, _, _, imm, hf, rfl⟩
  · cases h

theorem eq_of_asmLoad (h : asmLoad ops = some i) : ∃ rd rs1 disp, i = .lw rd rs1 disp := by
  unfold asmLoad at h
  split at h
  · obtain ⟨disp, -, rfl⟩ := Option.map_eq_some_iff.1 h
    exact ⟨_, _, disp, rfl⟩
  · cases h

theorem eq_of_asmStore (h : asmStore ops = some i) : ∃ rs1 rs2 disp, i = .sw rs1 rs2 disp := by
  unfold asmStore at h
  split at h
  · obtain ⟨disp, -, rfl⟩ := Option.map_eq_some_iff.1 h
    exact ⟨_, _, disp, rfl⟩
  · cases h

theorem eq_of_asmBranch {mk : RegNum → BitVec 5 → BitVec 16 → Instr} (h : asmBranch addr mk ops = some i) :
    ∃ rs1 off, i = mk rs1 0#5 off := by
  unfold asmBranch at h
  split at h
  · obtain ⟨off, -, rfl⟩ := Option.map_eq_some_iff.1 h
    exact ⟨_, off, rfl⟩
  · cases h

theorem eq_of_asmJump {mk : BitVec 26 → Instr} (h : asmJump addr mk ops = some i) : ∃ off, i = mk off := by
  unfold asmJump at h
  split at h
  · obtain ⟨off, -, rfl⟩ := Option.map_eq_some_iff.1 h
    exact ⟨off, rfl⟩
  · cases h

theorem eq_of_asmNop (h : asmNop ops = some i) : i = .nop := by
  unfold asmNop at h
  split at h
  · cases h; rfl
  · cases h

end Forms

/-! ### Lines and instructions -/

/-- The operands of an instruction with no ignored bit set are in the form of its mnemonic, each value in its range. -/
theorem assemble_disassemble (a : Word) {i : Instr} (h : i.wellFormed = true) :
    assemble a (disassemble a i) = some i := by
  cases i with
  | add | and | or | sge | sle | sll | sne | srl | sub | xor | nop => rfl
  | addi | sgei | slei | snei | subi => exact congrArg (Option.map _) (simm16OfInt_toInt _)
  | andi | ori | xori => exact congrArg (Option.map _) (uimm16OfInt_toNat _)
  | slli | srli => exact congrArg (Option.map _) (shamtOfInt_toNat (of_decide_eq_true h))
  | lw | sw => exact congrArg (Option.map _) (simm16OfInt_toInt _)
  | beqz rs1 unused off | bnez rs1 unused off =>
    obtain rfl : unused = 0#5 := eq_of_beq h
    simp [assemble, disassemble, Instr.mnemonic, asmOperands, asmBranch, BitVec.toInt_signExtend_of_le]
  | j | jal => simp [assemble, disassemble, Instr.mnemonic, asmOperands, asmJump, BitVec.toInt_signExtend_of_le]

/-- What a line stands for has no ignored bit set: a branch gets `r2 = 0`, a shift a five-bit amount. -/
theorem wellFormed_of_assemble {a : Word} {l : AsmLine} {i : Instr} (h : assemble a l = some i) :
    i.wellFormed = true ∧ i.mnemonic = l.mnemonic := by
  obtain ⟨m, ops⟩ := l
  cases m with
  | add | and | or | sge | sle | sll | sne | srl | sub | xor =>
    obtain ⟨rd, rs1, rs2, rfl⟩ := eq_of_asmRegReg h
    exact ⟨rfl, rfl⟩
  | addi | andi | ori | sgei | slei | snei | subi | xori =>
    obtain ⟨rd, rs1, v, imm, -, rfl⟩ := eq_of_asmRegImm h
    exact ⟨rfl, rfl⟩
  | slli | srli =>
    obtain ⟨rd, rs1, v, imm, hv, rfl⟩ := eq_of_asmRegImm h
    exact ⟨decide_eq_true (toNat_lt_of_shamtOfInt hv), rfl⟩
  | lw => obtain ⟨rd, rs1, disp, rfl⟩ := eq_of_asmLoad h; exact ⟨rfl, rfl⟩
  | sw => obtain ⟨rs1, rs2, disp, rfl⟩ := eq_of_asmStore h; exact ⟨rfl, rfl⟩
  | beqz | bnez => obtain ⟨rs1, off, rfl⟩ := eq_of_asmBranch h; exact ⟨rfl, rfl⟩
  | j | jal => obtain ⟨off, rfl⟩ := eq_of_asmJump h; exact ⟨rfl, rfl⟩
  | nop => obtain rfl := eq_of_asmNop h; exact ⟨rfl, rfl⟩

/-- Settles O58: by the operand form of each mnemonic, in both directions. -/
theorem disassemblyAssemblesBack : Obligations.DisassemblyAssemblesBack :=
  ⟨fun a _ => assemble_disassemble a, fun _ _ _ => wellFormed_of_assemble⟩

/-! ### Transfers to a label -/

section Label
variable {s : State} {lab : Word} {i : Instr}

theorem asmBranch_label {mk : RegNum → BitVec 5 → BitVec 16 → Instr} {r : RegNum}
    (h : asmBranch s.pc mk [.reg r, .label lab] = some i) :
    ∃ off, i = mk r 0#5 off ∧ target s (sext16 off) = lab := by
  obtain ⟨off, hoff, rfl⟩ := Option.map_eq_some_iff.1 h
  exact ⟨off, rfl, target_of_labelOffset (toInt_sext16_of_simm16OfInt hoff)⟩

theorem asmJump_label {mk : BitVec 26 → Instr} (h : asmJump s.pc mk [.label lab] = some i) :
    ∃ off, i = mk off ∧ target s (sext26 off) = lab := by
  obtain ⟨off, hoff, rfl⟩ := Option.map_eq_some_iff.1 h
  exact ⟨off, rfl, target_of_labelOffset (toInt_sext26_of_simm26OfInt hoff)⟩

end Label

/-- A branch whose condition holds goes to its target. -/
theorem branchIf_taken {c : Bool} (hc : c = true) (off : Word) (s : State) :
    branchIf c off s = .next (s.setPc (target s off)) := by
  rw [branchIf, if_pos hc]

/-- Settles O59: the field of a label operand is the label's offset, so the transfer's target is the label. -/
theorem labelOperandReachesItsLabel : Obligations.LabelOperandReachesItsLabel := by
  refine ⟨fun s t lab i ha he => ?_, fun s t lab i ha he => ?_, fun s t r lab i ha hr he => ?_,
    fun s t r lab i ha hr he => ?_⟩
  · obtain ⟨off, rfl, hlab⟩ := asmJump_label ha
    cases he
    exact hlab
  · obtain ⟨off, rfl, hlab⟩ := asmJump_label ha
    cases he
    exact hlab
  · obtain ⟨off, rfl, hlab⟩ := asmBranch_label ha
    cases (branchIf_taken (by simpa [isZero] using hr) _ _).symm.trans he
    exact hlab
  · obtain ⟨off, rfl, hlab⟩ := asmBranch_label ha
    cases (branchIf_taken (by simpa [isZero] using hr) _ _).symm.trans he
    exact hlab

/-! ### Idioms (R84) -/

theorem aluAdd_zero (a : Word) : aluAdd a 0#32 = a := BitVec.add_zero a

theorem aluAdd_zero_left (a : Word) : aluAdd 0#32 a = a := BitVec.zero_add a

theorem aluOr_zero_left (a : Word) : aluOr 0#32 a = a := BitVec.zero_or

theorem toNat_zext16 (imm : BitVec 16) : (zext16 imm).toNat = imm.toNat := BitVec.toNat_setWidth_of_le (by decide)

/-- Settles O60: register 0 reads as zero, which is neutral for the sum and for the bitwise or. -/
theorem idiomsOfTheAssembler : Obligations.IdiomsOfTheAssembler := by
  refine ⟨fun rd rs s => ?_, fun rd imm s => ?_, fun rd imm s => ?_⟩
  · exact writeAndAdvance_completes s rd _ fun _ => aluAdd_zero _
  · refine writeAndAdvance_completes s rd _ fun _ => ?_
    rw [reg_zero, aluAdd_zero_left, signedVal_eq_toInt, toInt_sext16]
  · refine writeAndAdvance_completes s rd _ fun _ => ?_
    rw [reg_zero, aluOr_zero_left, toNat_zext16]

end Sys2Proof.Machine
end

section
/-! The register-register ALU instructions (`41_alu_rtype.md`): the word of each (R72, R78), the value each writes (R100-R109,
R112, R113), and signed overflow (R111). -/

namespace Sys2Proof.Machine

/-! ### Words of the R format -/

/-- A word decodes to an instruction iff it is that instruction's own word. -/
theorem decode_eq_ok_iff {w : Word} {i : Instr} : decode w = .ok i ↔ encode i = w :=
  ⟨encode_of_decode, fun h => h ▸ decode_encode i⟩

/-- The mask, match and fields of R72 and R78 single out the words that decode to an instruction of the R format. -/
theorem decode_eq_ok_iff_rTypeWord {i : Instr} {rd rs1 rs2 : RegNum} (func : BitVec 11)
    (hi : encode i = encodeR func rd rs1 rs2) (w : Word) :
    decode w = .ok i ↔ RTypeWord w (0x00#6 ++ 0#15 ++ func) rd rs1 rs2 := by
  rw [decode_eq_ok_iff, rTypeWord_iff, hi]

/-! ### Completion (R110) -/

theorem aluRegReg_completes {f : Word → Word → Word} {s : State} {rs1 rs2 : RegNum} {P : Word → Prop} (rd : RegNum)
    (h : P (f (s.reg rs1) (s.reg rs2))) : CompletesWriting s (aluRegReg f rd rs1 rs2 s) rd P :=
  writeAndAdvance_completes s rd _ fun _ => h

theorem aluShift_completes {f : Word → Nat → Word} {s : State} {rs1 : RegNum} {n : Nat} {P : Word → Prop} (rd : RegNum)
    (h : P (f (s.reg rs1) n)) : CompletesWriting s (aluShift f rd rs1 n s) rd P :=
  writeAndAdvance_completes s rd _ fun _ => h

/-! ### The values written, in the spec's readings -/

section Values
variable (a b : Word)

theorem toNat_aluAdd : (aluAdd a b).toNat = (a.toNat + b.toNat) % 2 ^ 32 := BitVec.toNat_add a b

theorem toNat_aluSub : (aluSub a b).toNat = (a.toNat + (2 ^ 32 - b.toNat)) % 2 ^ 32 := BitVec.toNat_sub' a b

theorem getLsbD_aluAnd (k : Nat) : (aluAnd a b).getLsbD k = (a.getLsbD k && b.getLsbD k) := BitVec.getLsbD_and

theorem getLsbD_aluOr (k : Nat) : (aluOr a b).getLsbD k = (a.getLsbD k || b.getLsbD k) := BitVec.getLsbD_or

theorem getLsbD_aluXor (k : Nat) : (aluXor a b).getLsbD k = (a.getLsbD k != b.getLsbD k) := BitVec.getLsbD_xor

theorem toNat_aluShiftLeft (n : Nat) : (aluShiftLeft a n).toNat = a.toNat * 2 ^ n % 2 ^ 32 := by
  rw [aluShiftLeft, BitVec.toNat_shiftLeft, Nat.shiftLeft_eq]

theorem toNat_aluShiftRight (n : Nat) : (aluShiftRight a n).toNat = a.toNat / 2 ^ n := by
  rw [aluShiftRight, BitVec.toNat_ushiftRight, Nat.shiftRight_eq_div_pow]

/-- The result of a set instruction, by the condition it tests (R112). -/
theorem boolWord_decide (p : Prop) [Decidable p] : boolWord (decide p) = if p then 1#32 else 0#32 := by
  simp only [boolWord, decide_eq_true_eq]

theorem aluSge_eq : aluSge a b = if signedVal a ≥ signedVal b then 1#32 else 0#32 := by
  rw [aluSge, signedGe, boolWord_decide, signedVal_eq_toInt, signedVal_eq_toInt]

theorem aluSle_eq : aluSle a b = if signedVal a ≤ signedVal b then 1#32 else 0#32 := by
  rw [aluSle, signedLe, boolWord_decide, signedVal_eq_toInt, signedVal_eq_toInt]

theorem aluSne_eq : aluSne a b = if a ≠ b then 1#32 else 0#32 := boolWord_decide (a ≠ b)

end Values

/-! ### The ten instructions -/

/-- Settles O5, by `toNat_aluAdd`. -/
theorem addWritesItsResult : Obligations.AddWritesItsResult :=
  ⟨fun w _ _ _ => decode_eq_ok_iff_rTypeWord 0x020#11 rfl w, fun rd _ _ _ => aluRegReg_completes rd (toNat_aluAdd _ _),
    decode_encode (.add 9 20 10)⟩

/-- Settles O6, by `getLsbD_aluAnd`. -/
theorem andWritesItsResult : Obligations.AndWritesItsResult :=
  ⟨fun w _ _ _ => decode_eq_ok_iff_rTypeWord 0x024#11 rfl w,
    fun rd _ _ _ => aluRegReg_completes rd fun k _ => getLsbD_aluAnd _ _ k, decode_encode (.and 9 3 10)⟩

/-- Settles O7, by `getLsbD_aluOr`. -/
theorem orWritesItsResult : Obligations.OrWritesItsResult :=
  ⟨fun w _ _ _ => decode_eq_ok_iff_rTypeWord 0x025#11 rfl w,
    fun rd _ _ _ => aluRegReg_completes rd fun k _ => getLsbD_aluOr _ _ k, decode_encode (.or 5 3 4)⟩

/-- Settles O8, by `aluSge_eq`: the model's comparison is the order of the signed readings. -/
theorem sgeWritesItsResult : Obligations.SgeWritesItsResult :=
  ⟨fun w _ _ _ => decode_eq_ok_iff_rTypeWord 0x02d#11 rfl w, fun rd _ _ _ => aluRegReg_completes rd (aluSge_eq _ _),
    decode_encode (.sge 1 2 10)⟩

/-- Settles O9, by `aluSle_eq`: the model's comparison is the order of the signed readings. -/
theorem sleWritesItsResult : Obligations.SleWritesItsResult :=
  ⟨fun w _ _ _ => decode_eq_ok_iff_rTypeWord 0x02c#11 rfl w, fun rd _ _ _ => aluRegReg_completes rd (aluSle_eq _ _),
    decode_encode (.sle 13 2 4)⟩

/-- Settles O10: a left shift multiplies by a power of two, and the amount is the slice `b[4:0]`. -/
theorem sllWritesItsResult : Obligations.SllWritesItsResult := by
  refine ⟨fun w _ _ _ => decode_eq_ok_iff_rTypeWord 0x004#11 rfl w, fun rd rs1 rs2 s => aluShift_completes rd ?_,
    decode_encode (.sll 1 2 3)⟩
  rw [toNat_aluShiftLeft, shamtOfWord_eq_slice]

/-- Settles O11, by `aluSne_eq`. -/
theorem sneWritesItsResult : Obligations.SneWritesItsResult :=
  ⟨fun w _ _ _ => decode_eq_ok_iff_rTypeWord 0x029#11 rfl w, fun rd _ _ _ => aluRegReg_completes rd (aluSne_eq _ _),
    decode_encode (.sne 1 2 3)⟩

/-- Settles O12: a logical right shift divides by a power of two, and the amount is the slice `b[4:0]`. -/
theorem srlWritesItsResult : Obligations.SrlWritesItsResult := by
  refine ⟨fun w _ _ _ => decode_eq_ok_iff_rTypeWord 0x006#11 rfl w, fun rd rs1 rs2 s => aluShift_completes rd ?_,
    decode_encode (.srl 5 7 8)⟩
  rw [toNat_aluShiftRight, shamtOfWord_eq_slice]

/-- Settles O13, by `toNat_aluSub`. -/
theorem subWritesItsResult : Obligations.SubWritesItsResult :=
  ⟨fun w _ _ _ => decode_eq_ok_iff_rTypeWord 0x022#11 rfl w, fun rd _ _ _ => aluRegReg_completes rd (toNat_aluSub _ _),
    decode_encode (.sub 6 12 15)⟩

/-- Settles O14, by `getLsbD_aluXor`. -/
theorem xorWritesItsResult : Obligations.XorWritesItsResult :=
  ⟨fun w _ _ _ => decode_eq_ok_iff_rTypeWord 0x026#11 rfl w,
    fun rd _ _ _ => aluRegReg_completes rd fun k _ => getLsbD_aluXor _ _ k, decode_encode (.xor 6 12 15)⟩

/-! ### Signed overflow (R111) -/

section Overflow
variable (a b : Word)

/-- The sum modulo `2^32` is the same in the signed and in the unsigned reading. -/
theorem wrap_signedVal_add : wrap (signedVal a + signedVal b) = aluAdd a b := by
  rw [signedVal_eq_toInt, signedVal_eq_toInt, wrap, BitVec.ofInt_add, BitVec.ofInt_toInt, BitVec.ofInt_toInt, aluAdd]

theorem wrap_toNat_add : wrap (a.toNat + b.toNat) = aluAdd a b :=
  wrap_eq_of_toNat (by rw [toNat_aluAdd]; rfl)

theorem wrap_toNat_sub : wrap ((a.toNat : Int) - b.toNat) = aluSub a b := by
  apply wrap_eq_of_toNat
  have := b.isLt
  rw [toNat_aluSub]
  omega

/-- The difference modulo `2^32` is the same in the signed and in the unsigned reading. -/
theorem wrap_signedVal_sub : wrap (signedVal a - signedVal b) = aluSub a b := by
  obtain ⟨k, hk⟩ := toNat_eq_toInt_add a
  apply wrap_eq_of_toNat
  rw [signedVal_eq_toInt, signedVal_eq_toInt, aluSub, toNat_sub_toInt, hk]
  omega

/-- The sign of the signed reading is bit 31. -/
theorem decide_signedVal_neg (v : Word) : decide (signedVal v < 0) = v.msb := by
  rw [signedVal_eq_toInt, BitVec.msb_eq_toInt]

/-- R111's test of the signs finds the sums outside the range of a signed word. -/
theorem addOverflows_eq_saddOverflow : addOverflows a b = a.saddOverflow b := by
  rw [addOverflows, wrap_toNat_add]
  simp only [decide_signedVal_neg]
  rw [BitVec.saddOverflow_eq, aluAdd, bne]

/-- R111's test of the signs finds the differences outside the range of a signed word. -/
theorem subOverflows_eq_ssubOverflow : subOverflows a b = a.ssubOverflow b := by
  rw [subOverflows, wrap_toNat_sub]
  simp only [decide_signedVal_neg]
  rw [BitVec.ssubOverflow_eq, aluSub]
  cases a.msb <;> cases b.msb <;> simp

/-- A number survives the wrap iff it is in the range of a signed word. -/
theorem signedVal_wrap_eq_iff (v : Int) : signedVal (wrap v) = v ↔ -2 ^ 31 ≤ v ∧ v < 2 ^ 31 := by
  have := toNat_wrap v
  unfold signedVal
  split <;> omega

theorem addOverflows_eq_false_iff :
    addOverflows a b = false ↔ signedVal (aluAdd a b) = signedVal a + signedVal b := by
  rw [addOverflows_eq_saddOverflow, ← wrap_signedVal_add, signedVal_wrap_eq_iff, signedVal_eq_toInt,
    signedVal_eq_toInt]
  simp [BitVec.saddOverflow, and_comm]

theorem subOverflows_eq_false_iff :
    subOverflows a b = false ↔ signedVal (aluSub a b) = signedVal a - signedVal b := by
  rw [subOverflows_eq_ssubOverflow, ← wrap_signedVal_sub, signedVal_wrap_eq_iff, signedVal_eq_toInt,
    signedVal_eq_toInt]
  simp [BitVec.ssubOverflow, and_comm]

end Overflow

/-- What completing with one register written says of the destination alone. -/
theorem exists_dest_of_completesWriting {s : State} {o : Host.Outcome State Fault Refusal} {rd : RegNum}
    {P : Word → Prop} (h : CompletesWriting s o rd P) :
    ∃ t, o = .next t ∧ (rd = 0 → t.reg rd = 0#32) ∧ (rd ≠ 0 → P (t.reg rd)) := by
  obtain ⟨t, ho, ⟨hval, hzero, -⟩, -⟩ := h
  exact ⟨t, ho, hzero, hval⟩

section Signed
variable (rd rs1 rs2 : RegNum) (s : State)

theorem add_writes_signed_sum : CompletesWriting s (exec (.add rd rs1 rs2) s) rd fun v =>
    v = wrap (signedVal (s.reg rs1) + signedVal (s.reg rs2)) ∧
    (addOverflows (s.reg rs1) (s.reg rs2) = false ↔ signedVal v = signedVal (s.reg rs1) + signedVal (s.reg rs2)) :=
  aluRegReg_completes rd ⟨(wrap_signedVal_add _ _).symm, addOverflows_eq_false_iff _ _⟩

theorem sub_writes_signed_difference : CompletesWriting s (exec (.sub rd rs1 rs2) s) rd fun v =>
    v = wrap (signedVal (s.reg rs1) - signedVal (s.reg rs2)) ∧
    (subOverflows (s.reg rs1) (s.reg rs2) = false ↔ signedVal v = signedVal (s.reg rs1) - signedVal (s.reg rs2)) :=
  aluRegReg_completes rd ⟨(wrap_signedVal_sub _ _).symm, subOverflows_eq_false_iff _ _⟩

end Signed

/-- Settles O42: the result is the wrapped signed sum or difference, and R111's test of the signs says whether the wrap
changed it. -/
theorem signedOverflowOnlyWraps : Obligations.SignedOverflowOnlyWraps := fun rd rs1 rs2 s =>
  ⟨exists_dest_of_completesWriting (add_writes_signed_sum rd rs1 rs2 s),
    exists_dest_of_completesWriting (sub_writes_signed_difference rd rs1 rs2 s)⟩

end Sys2Proof.Machine
end

section
/-! The register-immediate ALU instructions (`42_alu_itype.md`): the word of each (R71, R78), the operand formed from its
immediate (R75, R113), and the value each writes (R120-R124, R126-R129). -/

namespace Sys2Proof.Machine

/-! ### Words of the I format -/

/-- The mask, match and fields of R71 and R78 single out the words that decode to an instruction of the I format with two
registers. -/
theorem decode_eq_ok_iff_iTypeWord {i : Instr} {rs1 r2 : RegNum} {imm : BitVec 16} (op : BitVec 6)
    (hi : encode i = encodeI op (bitsOfReg rs1) (bitsOfReg r2) imm) (w : Word) :
    decode w = .ok i ↔ ITypeWord w (op ++ 0#26) rs1.val r2.val imm := by
  rw [decode_eq_ok_iff, ← toNat_bitsOfReg rs1, ← toNat_bitsOfReg r2, iTypeWord_iff, hi]

/-! ### Completion (R130) -/

theorem aluRegImm_completes {f : Word → Word → Word} {s : State} {rs1 : RegNum} {m : Word} {P : Word → Prop} (rd : RegNum)
    (h : P (f (s.reg rs1) m)) : CompletesWriting s (aluRegImm f rd rs1 m s) rd P :=
  writeAndAdvance_completes s rd _ fun _ => h

/-! ### The operands formed from the immediate, in the spec's readings -/

section Operands
variable (a : Word) (imm : BitVec 16)

theorem signedVal_sext16 : signedVal (sext16 imm) = fieldVal imm := by
  rw [signedVal_eq_toInt, toInt_sext16]

/-- Zero extension keeps the bits of the field and has zeros above them. -/
theorem getLsbD_zext16 (k : Nat) : (zext16 imm).getLsbD k = (decide (k < 16) && imm.getLsbD k) := by
  rw [zext16, BitVec.getLsbD_setWidth]
  by_cases hk : k < 16
  · simp [hk, show k < 32 by omega]
  · simp [hk, BitVec.getLsbD_of_ge imm k (by omega)]

/-! ### The values written -/

theorem toNat_aluAdd_sext16 : ((aluAdd a (sext16 imm)).toNat : Int) = (a.toNat + fieldVal imm) % 2 ^ 32 := by
  rw [aluAdd, toNat_add_toInt, toInt_sext16]

theorem toNat_aluSub_sext16 : ((aluSub a (sext16 imm)).toNat : Int) = (a.toNat - fieldVal imm) % 2 ^ 32 := by
  rw [aluSub, toNat_sub_toInt, toInt_sext16]

theorem getLsbD_aluAnd_zext16 (k : Nat) :
    (aluAnd a (zext16 imm)).getLsbD k = (a.getLsbD k && (decide (k < 16) && imm.getLsbD k)) := by
  rw [getLsbD_aluAnd, getLsbD_zext16]

theorem getLsbD_aluOr_zext16 (k : Nat) :
    (aluOr a (zext16 imm)).getLsbD k = (a.getLsbD k || (decide (k < 16) && imm.getLsbD k)) := by
  rw [getLsbD_aluOr, getLsbD_zext16]

theorem getLsbD_aluXor_zext16 (k : Nat) :
    (aluXor a (zext16 imm)).getLsbD k = (a.getLsbD k != (decide (k < 16) && imm.getLsbD k)) := by
  rw [getLsbD_aluXor, getLsbD_zext16]

theorem aluSge_sext16 : aluSge a (sext16 imm) = if signedVal a ≥ fieldVal imm then 1#32 else 0#32 := by
  rw [aluSge_eq, signedVal_sext16]

theorem aluSle_sext16 : aluSle a (sext16 imm) = if signedVal a ≤ fieldVal imm then 1#32 else 0#32 := by
  rw [aluSle_eq, signedVal_sext16]

theorem aluSne_sext16 : aluSne a (sext16 imm) = if a ≠ wrap (fieldVal imm) then 1#32 else 0#32 := by
  rw [aluSne_eq, wrap_fieldVal]

theorem toNat_aluShiftRight_shamtOfImm :
    (aluShiftRight a (shamtOfImm imm)).toNat = a.toNat / 2 ^ (imm.toNat % 32) := by
  rw [toNat_aluShiftRight, shamtOfImm_eq_mod]

end Operands

/-! ### The nine instructions -/

/-- Settles O15, by `toNat_aluAdd_sext16`. -/
theorem addiWritesItsResult : Obligations.AddiWritesItsResult :=
  ⟨fun w _ _ _ => decode_eq_ok_iff_iTypeWord 0x08#6 rfl w,
    fun rd _ _ _ => aluRegImm_completes rd (toNat_aluAdd_sext16 _ _), decode_encode (.addi 1 2 0xFFFB#16)⟩

/-- Settles O16, by `getLsbD_aluAnd_zext16`. -/
theorem andiWritesItsResult : Obligations.AndiWritesItsResult :=
  ⟨fun w _ _ _ => decode_eq_ok_iff_iTypeWord 0x0c#6 rfl w,
    fun rd _ _ _ => aluRegImm_completes rd fun k _ => getLsbD_aluAnd_zext16 _ _ k, decode_encode (.andi 20 9 8#16)⟩

/-- Settles O17, by `getLsbD_aluOr_zext16`. -/
theorem oriWritesItsResult : Obligations.OriWritesItsResult :=
  ⟨fun w _ _ _ => decode_eq_ok_iff_iTypeWord 0x0d#6 rfl w,
    fun rd _ _ _ => aluRegImm_completes rd fun k _ => getLsbD_aluOr_zext16 _ _ k, decode_encode (.ori 5 3 0x0156#16)⟩

/-- Settles O18, by `aluSge_sext16`: the model's comparison is the order of the signed readings. -/
theorem sgeiWritesItsResult : Obligations.SgeiWritesItsResult :=
  ⟨fun w _ _ _ => decode_eq_ok_iff_iTypeWord 0x1d#6 rfl w,
    fun rd _ _ _ => aluRegImm_completes rd (aluSge_sext16 _ _), decode_encode (.sgei 9 20 6#16)⟩

/-- Settles O19, by `aluSle_sext16`: the model's comparison is the order of the signed readings. -/
theorem sleiWritesItsResult : Obligations.SleiWritesItsResult :=
  ⟨fun w _ _ _ => decode_eq_ok_iff_iTypeWord 0x1c#6 rfl w,
    fun rd _ _ _ => aluRegImm_completes rd (aluSle_sext16 _ _), decode_encode (.slei 1 3 0xFFFC#16)⟩

/-- Settles O21, by `aluSne_sext16`: the operand is the field's number modulo `2^32`. -/
theorem sneiWritesItsResult : Obligations.SneiWritesItsResult :=
  ⟨fun w _ _ _ => decode_eq_ok_iff_iTypeWord 0x19#6 rfl w,
    fun rd _ _ _ => aluRegImm_completes rd (aluSne_sext16 _ _), decode_encode (.snei 3 5 4#16)⟩

/-- Settles O22, by `toNat_aluShiftRight_shamtOfImm`: the amount is the low five bits of the immediate. -/
theorem srliWritesItsResult : Obligations.SrliWritesItsResult :=
  ⟨fun w _ _ _ => decode_eq_ok_iff_iTypeWord 0x16#6 rfl w,
    fun rd _ _ _ => aluShift_completes rd (toNat_aluShiftRight_shamtOfImm _ _), decode_encode (.srli 7 5 2#16)⟩

/-- Settles O23, by `toNat_aluSub_sext16`. -/
theorem subiWritesItsResult : Obligations.SubiWritesItsResult :=
  ⟨fun w _ _ _ => decode_eq_ok_iff_iTypeWord 0x0a#6 rfl w,
    fun rd _ _ _ => aluRegImm_completes rd (toNat_aluSub_sext16 _ _), decode_encode (.subi 7 9 0xFFE2#16)⟩

/-- Settles O24, by `getLsbD_aluXor_zext16`. -/
theorem xoriWritesItsResult : Obligations.XoriWritesItsResult :=
  ⟨fun w _ _ _ => decode_eq_ok_iff_iTypeWord 0x0e#6 rfl w,
    fun rd _ _ _ => aluRegImm_completes rd fun k _ => getLsbD_aluXor_zext16 _ _ k, decode_encode (.xori 6 12 1#16)⟩

end Sys2Proof.Machine
end

section
/-! `lw` and `sw` (`43_load_store.md` R141, R142): the word of each (R71, R78), the fault of the first check that fails, and
what each does when none fails. -/

namespace Sys2Proof.Machine

section Access
variable {rd rs1 rs2 : RegNum} {disp : BitVec 16} {s : State}

/-! ### A check fails -/

theorem exec_lw_of_some {r : Fault} (h : accessFault s.params (effAddr s rs1 disp) = some r) :
    exec (.lw rd rs1 disp) s = .fault r := by
  rw [exec, execLw_cases, h]

theorem exec_sw_of_some {r : Fault} (h : accessFault s.params (effAddr s rs1 disp) = some r) :
    exec (.sw rs1 rs2 disp) s = .fault r := by
  rw [exec, execSw_cases, h]

/-! ### No check fails -/

theorem exec_lw_completes (h : accessFault s.params (effAddr s rs1 disp) = none) :
    CompletesWriting s (exec (.lw rd rs1 disp) s) rd fun v =>
      v = s.mem.readWord s.params.byteOrder (effAddr s rs1 disp).toNat := by
  rw [exec, execLw_of_memRead rd (memRead_of_none h)]
  exact writeAndAdvance_completes s rd _ fun _ => rfl

theorem exec_sw_of_none (h : accessFault s.params (effAddr s rs1 disp) = none) :
    exec (.sw rs1 rs2 disp) s = .next ((s.withWord (effAddr s rs1 disp) (s.reg rs2)).setPc s.nextPc) := by
  rw [exec, execSw_cases, h]
  rfl

end Access

/-- A store leaves the bytes outside its word. -/
theorem readByte_writeWord_outside (o : ByteOrder) (m : Memory) {a b : Nat} (v : Word) (hb : b < a ∨ a + 3 < b) :
    (m.writeWord o a v).readByte b = m.readByte b := by
  rw [readByte_writeWord, if_neg (by omega)]

/-! ### The two instructions -/

/-- Settles O25: each clause is one outcome of the checks of R47 at the effective address. -/
theorem lwLoadsTheAddressedWord : Obligations.LwLoadsTheAddressedWord := by
  refine ⟨fun w _ _ _ => decode_eq_ok_iff_iTypeWord 0x23#6 rfl w, fun rd rs1 disp s ea hea => ?_,
    decode_encode (.lw 19 8 0x003F#16)⟩
  rw [wrap_effAddr] at hea
  subst hea
  refine ⟨fun h4 => ?_, fun h4 hg ht => ?_, fun h4 hg hm => ?_, fun h4 hg hm => ?_⟩
  · exact exec_lw_of_some (accessFault_misaligned h4)
  · exact exec_lw_of_some (accessFault_text h4 hg ht)
  · exact exec_lw_of_some (accessFault_unmapped h4 hg hm)
  · exact exec_lw_completes (accessFault_none.2 ⟨h4, hg, hm⟩)

/-- Settles O26: each clause is one outcome of the checks of R48 at the effective address, and past them the bytes of memory
are those of `readByte_writeWord`. -/
theorem swStoresTheAddressedWord : Obligations.SwStoresTheAddressedWord := by
  refine ⟨fun w _ _ _ => decode_eq_ok_iff_iTypeWord 0x2b#6 rfl w, ?_, decode_encode (.sw 0 1 1#16)⟩
  rintro rs1 rs2 disp s _ rfl
  refine ⟨(wrap_effAddr s rs1 disp).symm, fun h4 => ?_, fun h4 hg ht => ?_, fun h4 hg hm => ?_, fun h4 hg hm => ?_⟩
  · exact exec_sw_of_some (accessFault_misaligned h4)
  · exact exec_sw_of_some (accessFault_text h4 hg ht)
  · exact exec_sw_of_some (accessFault_unmapped h4 hg hm)
  · exact ⟨_, exec_sw_of_none (accessFault_none.2 ⟨h4, hg, hm⟩), fun _ => rfl, advances_of_pc_eq_nextPc rfl, ⟨rfl, rfl⟩,
      readWord_writeWord_same .., fun _ => readByte_writeWord_outside _ _ _⟩

end Sys2Proof.Machine
end

section
/-! Control transfers (`44_control.md`): the word of each (R71, R73, R78), the target and the frame of each (R150-R155), and
what the next step does at a bad target (R156). -/

namespace Sys2Proof.Machine

/-! ### Words of the branches and the jumps -/

/-- The mask, match and fields of R71 and R78 single out the words that decode to a branch, whatever their `r2` field. -/
theorem decode_eq_ok_iff_branchWord {i : Instr} {rs1 : RegNum} {u : BitVec 5} {off : BitVec 16} (op : BitVec 6)
    (hi : encode i = encodeI op (bitsOfReg rs1) u off) (w : Word) :
    decode w = .ok i ↔ ITypeWord w (op ++ 0#26) rs1.val u.toNat off := by
  rw [decode_eq_ok_iff, ← toNat_bitsOfReg rs1, iTypeWord_iff, hi]

/-- The mask, match and field of R73 and R78 single out the words that decode to a jump. -/
theorem decode_eq_ok_iff_jTypeWord {i : Instr} {off : BitVec 26} (op : BitVec 6) (hi : encode i = encodeJ op off)
    (w : Word) : decode w = .ok i ↔ JTypeWord w (op ++ 0#26) off := by
  rw [decode_eq_ok_iff, jTypeWord_iff, hi]

/-! ### Branches (R151, R152) -/

theorem isZero_iff {a : Word} : isZero a = true ↔ a = 0#32 := decide_eq_true_iff

theorem not_isZero_iff {a : Word} : (!isZero a) = true ↔ a ≠ 0#32 := by
  rw [Bool.not_eq_true', Bool.eq_false_iff, ne_eq, isZero_iff]

/-- A branch on a test of `p` goes to its target if `p` holds and to the next instruction if not, and changes nothing else. -/
theorem branchIf_completes {c : Bool} {p : Prop} [Decidable p] (hc : c = true ↔ p) (off : BitVec 16) (s : State) :
    CompletesAt s (branchIf c (sext16 off) s)
      (if p then s.pc.toNat + 4 + fieldVal off else s.pc.toNat + 4) := by
  apply setPc_completes
  by_cases hp : p
  · rw [if_pos (hc.2 hp), if_pos hp, toNat_target16]
  · rw [if_neg (mt hc.1 hp), if_neg hp, nextPc_toNat]
    rfl

/-- Settles O32, by `branchIf_completes` for the test of all 32 bits against zero. -/
theorem beqzBranchesOnZero : Obligations.BeqzBranchesOnZero :=
  ⟨fun w _ _ _ => decode_eq_ok_iff_branchWord 0x04#6 rfl w, fun _ _ off s => branchIf_completes isZero_iff off s,
    decode_encode (.beqz 0 0#5 0xFFEE#16), by decide⟩

/-- Settles O33, by `branchIf_completes` for the negated test. -/
theorem bnezBranchesOnNonzero : Obligations.BnezBranchesOnNonzero :=
  ⟨fun w _ _ _ => decode_eq_ok_iff_branchWord 0x05#6 rfl w, fun _ _ off s => branchIf_completes not_isZero_iff off s,
    decode_encode (.bnez 2 0#5 0xFFE2#16), by decide⟩

/-! ### Jumps (R153, R154) -/

/-- Settles O34, by `toNat_target26`. -/
theorem jumpGoesToItsTarget : Obligations.JumpGoesToItsTarget :=
  ⟨fun w _ => decode_eq_ok_iff_jTypeWord 0x02#6 rfl w, fun off s => setPc_completes (toNat_target26 s off),
    decode_encode (.j 0x3FFFF3C#26), by decide⟩

/-- A register write that is not discarded holds the value written, and leaves every other register. -/
theorem setReg_writesReg {s : State} {rd : RegNum} {v : Word} {P : Word → Prop} (hrd : rd ≠ 0) (hv : P v) :
    WritesReg s (s.setReg rd v) rd P :=
  ⟨fun _ => by rwa [reg_setReg_self _ _ _ hrd], fun h => absurd h hrd, fun _ => reg_setReg_other _ _ _ _⟩

/-- Settles O35: the link is one register write, and the target is `toNat_target26`. -/
theorem jalLinksAndJumps : Obligations.JalLinksAndJumps := by
  refine ⟨fun w _ => decode_eq_ok_iff_jTypeWord 0x03#6 rfl w, fun off s => ?_, decode_encode (.jal 8#26)⟩
  have hlink : WritesReg s (s.setReg linkReg s.nextPc) linkReg (fun v => v.toNat = (s.pc.toNat + 4) % 2 ^ 32) :=
    setReg_writesReg (by decide) (nextPc_toNat s)
  have he : exec (.jal off) s = .next ((s.setReg linkReg s.nextPc).setPc (target s (sext26 off))) := rfl
  exact ⟨_, he, hlink, toNat_target26 s off, fun a => by rw [exec_keeps_mem he nofun], exec_keepsRun he⟩

/-! ### Bad targets (R156) -/

/-- Each of the four transfers completes in every state: none checks its target. -/
theorem exists_next_of_transfersControl {i : Instr} (hi : transfersControl i = true) (s : State) :
    ∃ t, exec i s = .next t := by
  cases i with
  | beqz | bnez | j | jal => exact ⟨_, rfl⟩
  | _ => cases hi

/-- Settles O37: a transfer keeps the parameters and the running status, so the next step is decided by its fetch; a
misaligned `pc` is not `END_PC`, which is a multiple of 4. -/
theorem badTargetFaultsAtTheNextStep : Obligations.BadTargetFaultsAtTheNextStep := by
  rintro i s hi hs ⟨-, -, hend⟩
  obtain ⟨t, ht⟩ := exists_next_of_transfersControl hi s
  obtain ⟨hparams, hstatus⟩ := exec_keepsRun ht
  have hrun : t.status = .running := hstatus.trans hs
  rw [← hparams] at hend
  refine ⟨t, ht, fun h4 => ?_, fun h4 htext he => ?_, fun he => ?_⟩
  · have he : endAddr t.params ≠ some t.pc := fun he => h4 ((aligned_iff _).1 (aligned_of_endAddr hend he))
    exact step_fetchFault hrun he (fetch_misaligned h4)
  · exact step_fetchFault hrun he (fetch_unmapped h4 htext)
  · exact step_atEnd hrun he

end Sys2Proof.Machine
end

section
/-! `nop` (`45_nop.md`, R170): its one word, the reserved tails of its `op` (R78 (b), R79), and its frame. -/

namespace Sys2Proof.Machine

/-- `nop` has no operand, so its encoding is one fixed word. -/
theorem decode_eq_nop_iff (w : Word) : decode w = .ok .nop ↔ w = 0x54000000#32 := by
  have hword : encode .nop = 0x54000000#32 := rfl
  rw [decode_eq_ok_iff, hword, eq_comm]

/-- A word with the `op` of `nop` and a tail that is not zero is reserved (R78 (b)). -/
theorem decode_nopTail_of_slices {w : Word} (hop : slice w 31 26 = 0x15) (htail : slice w 25 0 ≠ 0) :
    decode w = .error (.nopTail (imm26Field w)) := by
  rw [slice_op] at hop
  rw [slice_imm26] at htail
  exact decode_nopTail (BitVec.eq_of_toNat_eq hop) fun hz => htail (congrArg BitVec.toNat hz)

theorem exec_nop (s : State) : exec .nop s = .next (s.setPc s.nextPc) := rfl

/-- `nop` writes nothing but `pc`, which becomes `A + 4`. -/
theorem exec_nop_completes (s : State) : CompletesAt s (exec .nop s) (s.pc.toNat + 4) := by
  have hpc : (s.nextPc.toNat : Int) = (s.pc.toNat + 4) % 2 ^ 32 := by
    rw [nextPc_toNat]
    rfl
  rw [exec_nop]
  exact setPc_completes hpc

/-- Settles O36: the word is the encoding of `nop`, and the frame is that of `setPc`. -/
theorem nopOnlyAdvances : Obligations.NopOnlyAdvances :=
  ⟨decode_eq_nop_iff, fun _ hop htail => ⟨_, decode_nopTail_of_slices hop htail⟩, exec_nop_completes⟩

end Sys2Proof.Machine
end

section
/-! Faults and the order of a step's checks (`60_exceptions.md`): what a faulted machine is and does (R182), the order in which
R184 lists the checks, and which instructions can raise a fault of their own (R181, R194). -/

namespace Sys2Proof.Machine

/-! ### A fault is precise and terminal (R182) -/

theorem advance_of_step_fault {s : State} {r : Fault} (h : step s = .fault r) : advance s = s.raised r := by
  rw [advance, h]

theorem step_raised (s : State) (r : Fault) : step (s.raised r) = .fault r := step_of_faulted (raised_status s r)

/-- A faulted machine stays as it is: the fault it answers is the one it has recorded. -/
theorem advance_raised (s : State) (r : Fault) : advance (s.raised r) = s.raised r :=
  advance_of_step_fault (step_raised s r)

/-- Settles O46: the machine after a fault is `s.raised r`, which differs from `s` in the status alone. -/
theorem faultsArePreciseAndTerminal : Obligations.FaultsArePreciseAndTerminal := by
  intro s r h
  rw [advance_of_step_fault h]
  exact ⟨fun q => raised_reg s q r, raised_pc s r, raised_mem s r, raised_params s r, raised_status s r, step_raised s r,
    advance_raised s r⟩

/-! ### The order of the checks (R184) -/

/-- Settles O45: the fetch decides in the order of R49, and a fetched word is reserved or decodes by the row it matches. -/
theorem stepChecksInOrder : Obligations.StepChecksInOrder := by
  refine fun s hs => ⟨step_atEnd hs, fun he => ⟨fun h4 => ?_, fun h4 ht => ?_, fun w h4 ht => ?_⟩⟩
  · exact step_fetchFault hs he (fetch_misaligned h4)
  · exact step_fetchFault hs he (fetch_unmapped h4 ht)
  · have hf : fetch s s.pc = .ok w := fetch_text h4 ht
    refine ⟨fun hno => ?_, fun row hr hmatch => ?_⟩
    · obtain ⟨e, hd⟩ := (decodeMatchesOpcodeRows.2 w).1 hno
      exact step_illegal hs he hf hd
    · obtain ⟨i, hd, hm⟩ := decodesAs_of_row hr hmatch
      exact ⟨i, hd, hm, step_run hs he hf hd⟩

/-! ### The faults of an instruction (R181, R194) -/

/-- A failed access raises the fault of one of its three checks. -/
theorem accessFault_some {p : Params} {a : Word} {r : Fault} (h : accessFault p a = some r) :
    r = .misalignedAccess a ∨ r = .textAccess a ∨ r = .unmappedAccess a := by
  unfold accessFault at h
  split_ifs at h <;> cases h
  · exact .inl rfl
  · exact .inr (.inl rfl)
  · exact .inr (.inr rfl)

/-- An instruction completes, or it is a load or a store whose access fails a check, and it raises the fault of that check. -/
theorem exec_completes_or_accessFault (i : Instr) (s : State) :
    (∃ t, exec i s = .next t) ∨
      (i.mnemonic = .lw ∨ i.mnemonic = .sw) ∧ ∃ ea r, accessFault s.params ea = some r ∧ exec i s = .fault r := by
  cases i with
  | lw rd rs1 disp =>
    cases h : accessFault s.params (effAddr s rs1 disp) with
    | none =>
      obtain ⟨t, ht, -⟩ := exec_lw_completes (rd := rd) h
      exact .inl ⟨t, ht⟩
    | some r => exact .inr ⟨.inl rfl, _, r, h, exec_lw_of_some h⟩
  | sw rs1 rs2 disp =>
    cases h : accessFault s.params (effAddr s rs1 disp) with
    | none => exact .inl ⟨_, exec_sw_of_none h⟩
    | some r => exact .inr ⟨.inr rfl, _, r, h, exec_sw_of_some h⟩
  | _ => exact .inl ⟨_, rfl⟩

/-- Settles O47: only an access can stop an instruction, and an access stops it by one of its three checks. -/
theorem instructionsCompleteOrHaveNoEffect : Obligations.InstructionsCompleteOrHaveNoEffect := by
  refine ⟨fun i s hlw hsw => ?_, fun i s => ?_, fun i s r hr => ?_⟩
  · exact (exec_completes_or_accessFault i s).resolve_right fun h => h.1.elim hlw hsw
  · obtain ht | ⟨-, -, r, -, hr⟩ := exec_completes_or_accessFault i s
    · exact .inl ht
    · exact .inr ⟨r, hr⟩
  · obtain ⟨t, ht⟩ | ⟨-, ea, q, hq, he⟩ := exec_completes_or_accessFault i s
    · cases ht.symm.trans hr
    · cases he.symm.trans hr
      exact ⟨ea, accessFault_some hq⟩

end Sys2Proof.Machine
end

section
/-! The step at an instruction, the end of a run, reset and the placing of an instruction (`70_reset_and_hazards.md` R200, R202,
R205, R206). -/

namespace Sys2Proof.Machine

/-! ### A step at an instruction (R205) -/

/-- Settles O44: past the end-of-run test, an aligned `pc` fetches the word of the text there. -/
theorem stepRunsTheDecodedInstruction : Obligations.StepRunsTheDecodedInstruction :=
  fun _ _ _ hs he h4 ht => step_run hs he (fetch_text h4 ht)

/-! ### The end of a run (R202) -/

theorem advance_of_step_refused {s : State} {r : Refusal} (h : step s = .refused r) : advance s = s := by
  rw [advance, h]

/-- The state after a step is running, or is over and stands at `END_PC`. -/
theorem status_of_step_next {s t : State} (h : step s = .next t) :
    t.status = .running ∨ (t.status = .ended ∧ endAddr t.params = some t.pc) := by
  obtain ⟨hrun, ⟨he, rfl⟩ | ⟨i, hi⟩⟩ := step_next h
  · exact .inr ⟨ended_status s, he⟩
  · exact .inl ((exec_keepsRun hi).2.trans hrun)

/-- Settles O48: `s.ended` differs from `s` in the status alone, and only a running state has a next one. -/
theorem endOfRunIsFinal : Obligations.EndOfRunIsFinal := by
  refine ⟨fun s hs he => ?_, fun s hs => ?_, fun s r => step_of_faulted, fun s t h => ?_⟩
  · exact ⟨s.ended, step_atEnd hs he, ended_status s, ended_reg s, ended_pc s, ended_mem s, ended_params s⟩
  · exact ⟨step_of_ended hs, advance_of_step_refused (step_of_ended hs)⟩
  · exact ⟨(step_next h).1, status_of_step_next h⟩

/-! ### Reset (R200) -/

/-- The defaults name no text and no `END_PC`, and `RESET_PC` is 0. -/
theorem paramsWf_default : paramsWf Params.default := by decide

/-- Settles O51: reset is the launch of the defaults, and its memory lists nothing that would need backing. -/
theorem resetMeetsTheInvariant : Obligations.ResetMeetsTheInvariant :=
  launchMeetsTheInvariant Params.default resetRegisters [] paramsWf_default reset_mem_wf (List.forall_mem_nil _)

/-! ### A placed instruction (R206, log 8) -/

/-- A table row is read as the decoder reads its word: the bytes of a word are that word again. -/
theorem decodeTableWord_eq_some_iff {nbits w : Nat} {i : Instr} :
    decodeTableWord nbits w = some i ↔ decode (tableWord nbits w) = .ok i := by
  simp only [decodeTableWord, decodeBytes, wordOfBytes_byteOfWord]
  cases decode (tableWord nbits w) <;> simp

section Placed
variable (p : Params) (a w : Word)

theorem paramsWithWord_text : (paramsWithWord p a w).text = putTextWord p.byteOrder p.text a.toNat w := by
  simp only [paramsWithWord, apply_ite Params.text, ite_self]

theorem paramsWithWord_byteOrder : (paramsWithWord p a w).byteOrder = p.byteOrder := by
  simp only [paramsWithWord, apply_ite Params.byteOrder, ite_self]

theorem textAt_paramsWithWord : textAt (paramsWithWord p a w) a = some w := by
  rw [textAt, paramsWithWord_text, paramsWithWord_byteOrder, textWord_putTextWord_same]

/-- Placing a word never leaves `END_PC` on it: where it would be, it is moved on. -/
theorem endAddr_paramsWithWord_ne : endAddr (paramsWithWord p a w) ≠ some a := by
  simp only [paramsWithWord]
  split_ifs with he
  · rw [endAddr_of_given rfl]
    simp
  · exact he

end Placed

/-- The state that a placed word leaves meets every condition of R205 at that word. -/
theorem step_placeWord (s : State) {w : Word} {i : Instr} (hd : decode w = .ok i) :
    step (s.placeWord w) = exec i (s.placeWord w) :=
  stepRunsTheDecodedInstruction (s.placeWord w) w i (placeWord_status s w) (endAddr_paramsWithWord_ne s.params (slotOf s) w)
    ((aligned_iff _).1 (aligned_slotOf s)) (textAt_paramsWithWord ..) hd

/-- Settles O57: the row's word stands at `pc` and is not at `END_PC`; registers and data memory are not touched. -/
theorem placedInstructionIsTheNextToRun : Obligations.PlacedInstructionIsTheNextToRun :=
  fun s _ _ _ h => ⟨step_placeWord s (decodeTableWord_eq_some_iff.1 h), fun _ => rfl, fun _ => rfl⟩

end Sys2Proof.Machine
end

section
/-! `slli` (`42_alu_itype.md`, R125; its meaning is the spec's decision D15), and the example words of `95_test_vectors.md`. -/

namespace Sys2Proof.Machine

theorem toNat_aluShiftLeft_shamtOfImm (a : Word) (imm : BitVec 16) :
    (aluShiftLeft a (shamtOfImm imm)).toNat = a.toNat * 2 ^ (imm.toNat % 32) % 2 ^ 32 := by
  rw [toNat_aluShiftLeft, shamtOfImm_eq_mod]

/-- Settles O20, by `toNat_aluShiftLeft_shamtOfImm`: the amount is the low five bits of the immediate. -/
theorem slliWritesItsResult : Obligations.SlliWritesItsResult :=
  ⟨fun w _ _ _ => decode_eq_ok_iff_iTypeWord 0x14#6 rfl w,
    fun rd _ _ _ => aluShift_completes rd (toNat_aluShiftLeft_shamtOfImm _ _), decode_encode (.slli 4 1 5#16)⟩

/-- Settles O4: each word is the encoding of the instruction the spec names, so `decode_encode` gives that instruction back. -/
theorem exampleWordsDecode : Obligations.ExampleWordsDecode :=
  ⟨decode_encode (.add 9 20 10), decode_encode (.addi 1 2 0xFFFB#16), decode_encode (.beqz 0 0#5 0xFFEE#16),
    decode_encode (.j 0x3FFFF3C#26), decode_encode (.jal 8#26), decode_encode (.lw 19 8 0x003F#16), decode_encode .nop,
    decode_encode (.slli 4 1 5#16), decode_encode (.sw 13 6 0x0015#16), decode_encode (.xor 6 12 15)⟩

end Sys2Proof.Machine
end

section
/-! The canonical form of the data memory (log 3): what it reads determines its list of cells. -/

namespace Sys2Proof.Machine

/-- A well-formed memory lists exactly the bytes that read as something else than an unlisted one. -/
theorem mem_iff_readByte {m : Memory} (hm : m.wf) {c : Host.Cell} :
    c ∈ m ↔ m.readByte c.1 = c.2 ∧ c.2 ≠ unlistedByte := by
  obtain ⟨⟨hrise, -⟩, hlisted⟩ := hm
  constructor
  · intro hc
    exact ⟨by rw [Memory.readByte, cellAt_of_mem hrise hc, Option.getD_some], hlisted c hc⟩
  · rintro ⟨hread, hne⟩
    rw [Memory.readByte] at hread
    cases hcell : cellAt m c.1 with
    | none => exact absurd (by rw [← hread, hcell, Option.getD_none]) hne
    | some b =>
      rw [hcell, Option.getD_some] at hread
      subst hread
      exact mem_of_cellAt hcell

/-- Rising addresses leave one order for a set of cells. -/
theorem eq_of_cellsRise_of_mem_iff {m n : Memory} (hm : cellsRise m) (hn : cellsRise n) (h : ∀ c, c ∈ m ↔ c ∈ n) : m = n :=
  have : Std.Irrefl fun c d : Host.Cell => c.1 < d.1 := ⟨fun _ => Nat.lt_irrefl _⟩
  have : Std.Antisymm fun c d : Host.Cell => c.1 < d.1 := ⟨fun _ _ h1 h2 => absurd h2 (Nat.lt_asymm h1)⟩
  hm.1.eq_of_mem_iff hn.1 h

/-- Settles O31: memories that read alike list the same cells, and rising addresses put them in the same order. -/
theorem equalMemoriesAreEqualData : Obligations.EqualMemoriesAreEqualData := by
  intro m n hm hn hread
  refine eq_of_cellsRise_of_mem_iff hm.1 hn.1 fun c => ?_
  rw [mem_iff_readByte hm, mem_iff_readByte hn, hread]

end Sys2Proof.Machine
end
